-- ==== Sys2Proof/Word.lean ====
section
/-! DEFINITION. The widths of the block's quantities (00_scope.md R12, R13): a byte of FB or of the bus,
and a 16-bit control register or operation word. Bit `k` has weight `2^k` in both. -/

namespace Sys2Proof

/-- A byte: one FB cell, one bus transfer, one immediate (R12). -/
abbrev Byte := BitVec 8

/-- A control register or an operation word (R23, R80). -/
abbrev Word := BitVec 16

end Sys2Proof
end

