-- ==== Sys2Proof/Config.lean ====
section
/-! DEFINITION. What is fixed before power-on (00_scope.md R6 to R10, 10_state.md R37), the names the
parameters use, and the free values. A constant the spec gives has its value here; one it leaves open
is `opaque`, so that no proof can see what it is. -/

namespace Sys2Proof

/-- The two physical transports (R7); CFG bit 0 reads 0 for SPI and 1 for I2C (R27). -/
inductive Transport where
  | spi
  | i2c
  deriving DecidableEq, Repr, Inhabited

/-- The level of a pin: `low` is 0, `high` is 1 (R31). -/
inductive Level where
  | low
  | high
  deriving DecidableEq, Repr, Inhabited

/-- The four output pins of the block (R8). -/
inductive Pin where
  | rst
  | dc
  | cs
  | bl
  deriving DecidableEq, Repr, Inhabited

/-- A bitmap pixel: `ink` is the value 0, `background` the value 1 (R30, R170). -/
inductive Pixel where
  | ink
  | background
  deriving DecidableEq, Repr, Inhabited

/-- The bit a pixel is stored as (R30). -/
def Pixel.bit : Pixel → Bool
  | .ink => false
  | .background => true

/-- The platform's BCM number of a pin (R8). -/
def Pin.bcm : Pin → Nat
  | .rst => 25
  | .dc => 24
  | .cs => 8
  | .bl => 18

/-- How chip-select moves around an SPI byte (`CS_FRAMING`, R10): the levels CS is driven to before the byte
and those it is driven to after it, each in order; empty where it does not move. -/
structure ChipSelectFraming where
  before : List Level
  after : List Level
  deriving DecidableEq, Repr, Inhabited

/-- The three spaces the host sees (20_memory.md R50): registers, FB, BM. -/
inductive HostSpace where
  | reg
  | fb
  | bm
  deriving DecidableEq, Repr, Inhabited

/-- Where the host sees one register, byte or pixel: on which of its ports, at which address there. -/
structure HostPlace where
  port : Nat
  address : Nat
  deriving DecidableEq, Repr, Inhabited

namespace Config

/-- `W`, the display's width in pixels (R6). -/
abbrev width : Nat := 128

/-- `H`, the display's height in pixels (R6). -/
abbrev height : Nat := 64

/-- `PAGES` (R6): eight-row bands of the display. -/
abbrev pages : Nat := 8

/-- `FBSIZE` (R6): the framebuffer's length in bytes. -/
abbrev fbSize : Nat := 1024

/-- How many pixels BM holds (R30). -/
abbrev bmSize : Nat := 8192

/-- `I2C_ADDR` (R7): the display's 7-bit device address. -/
def i2cAddr : BitVec 7 := 0x3C

/-- `T_SETTLE` in milliseconds (R9). -/
abbrev settleMs : Nat := 100

/-- `TRANSPORT` (R7): the strap sampled at power-on. Open in the spec; no proof can see its value
(assumption 6). -/
opaque transport : Transport

/-- `INIT_SEQ` (R10, R133): the command bytes INIT sends. Open in the spec (assumption 7). -/
opaque initSeq : List Byte

/-- `PIN_RESET_LEVELS` and, at `.bl`, `BL_LEVEL` (R10, R35): the pins' levels before the first
operation. Open in the spec (assumption 5). -/
opaque pinResetLevel : Pin → Level

/-- `CS_FRAMING` (R10). Open in the spec, and no step depends on it (assumption 11). -/
opaque csFraming : ChipSelectFraming

/-- `HOST_MAP` (R10, 20_memory.md R50, R57): where the host sees each register, FB byte and BM cell, by its
number in its space. Open in the spec, and no step depends on it (assumption 11). -/
opaque hostMap : HostSpace → Nat → HostPlace

/-- What a framebuffer byte holds at power-on (R35: unspecified). A free value (assumption 4). -/
opaque fbPowerOn : Nat → Byte

/-- What a bitmap cell holds at power-on (R35: unspecified). A free value (assumption 4). -/
opaque bmPowerOn : Nat → Pixel

/-- The environment oracle's answer to its `n`th question "did the bus/GPIO initialization succeed?"
where no answer is queued in State (R11, R132: drawn under no law). A free value (assumption 3). -/
opaque freeInitOk : Nat → Bool

/-- The environment oracle's answer to its `n`th question "does this transfer succeed?" where no answer
is queued in State (R11, R115: drawn under no law). A free value (assumption 3). -/
opaque freeTransferOk : Nat → Bool

end Config

end Sys2Proof
end

