-- ==== Sys2Proof/Syntax.lean ====
section
/-! DEFINITION. The instructions: one constructor per row of spec/opcode_table.json (30_encoding.md R81
for the seven host operations, R86 for the three command bytes the block forms itself). -/

namespace Sys2Proof

/-- The instructions of the block. `showFrame` is the table's SHOW (the shorter word is a keyword of
Lean). Operands the source passes as arguments travel in state (R81). -/
inductive Instr where
  /-- CMD imm8 (R116): send one command byte. -/
  | cmd (imm8 : Byte)
  /-- DATA imm8 (R117): send one data byte. -/
  | data (imm8 : Byte)
  /-- RESET (R131): pulse the display's reset line. -/
  | reset
  /-- INIT (R132): reset the display and send the initialization sequence. -/
  | init
  /-- CLEAR (R136): blank the display. -/
  | clear
  /-- SHOW (R135): send the framebuffer to the display. -/
  | showFrame
  /-- PACK (R160): pack the bitmap into the framebuffer. -/
  | pack
  /-- SETPAGE page (R86): the page-select command byte `0xB0 + page`. -/
  | setPage (page : Nat)
  /-- SETCOLLO (R86): the low-column-address command byte `0x02`. -/
  | setColLo
  /-- SETCOLHI (R86): the high-column-address command byte `0x10`. -/
  | setColHi
  deriving DecidableEq, Repr

end Sys2Proof
end

