-- ==== Sys2Proof/WellFormed.lean ====
section
/-! DEFINITION. Which instructions have an encoding: the one operand whose type is wider than its field
is SETPAGE's page, `0..7` (30_encoding.md R86). An immediate is any byte (R82). -/

namespace Sys2Proof

/-- The check of an instruction's operands against the widths of their fields. -/
def Instr.wellFormed : Instr → Bool
  | .cmd _ => true
  | .data _ => true
  | .reset => true
  | .init => true
  | .clear => true
  | .showFrame => true
  | .pack => true
  | .setPage page => decide (page < Config.pages)
  | .setColLo => true
  | .setColHi => true

end Sys2Proof
end

