-- ==== Sys2Proof/Decode.lean ====
section
/-! DEFINITION. The decoder, total on every word and rejecting by name, and the encoder, both written from
30_encoding.md: format HOST16 (R80 to R84) for the host's operation words and format CTRL8 (R86) for the
command bytes the block forms. The two formats are never confused: a host word is 16 bits written to OP,
a CTRL8 byte is one the sequencer forms. -/

namespace Sys2Proof

/-- An encoded instruction, in the format it has. -/
inductive InstrWord where
  /-- A word written to OP (R80). -/
  | host16 (w : Word)
  /-- A command byte the block forms (R86). -/
  | ctrl8 (b : Byte)
  deriving DecidableEq, Repr

/-- Why a word encodes nothing. The first two are the two kinds of illegal host word of R83. -/
inductive DecodeError where
  /-- `opcode` is `0x00` or in `0x08..0xFF`. -/
  | noSuchOpcode (opcode : Byte)
  /-- `opcode` is in `0x03..0x07` and `imm8` is not `0x00`. -/
  | immediateNotZero (opcode imm8 : Byte)
  /-- The byte is none of the ten that R86 gives. -/
  | notCtrl8 (b : Byte)
  deriving DecidableEq, Repr

/-- `w[15:8]` (R80). -/
def opcodeOf (w : Word) : Byte := w.extractLsb' 8 8

/-- `w[7:0]`, unsigned, used as it stands (R80, R82). -/
def imm8Of (w : Word) : Byte := w.extractLsb' 0 8

/-- An operation without an immediate: `imm8` must be `0x00` (R80, R83). -/
def withoutImmediate (w : Word) (i : Instr) : Except DecodeError Instr :=
  if imm8Of w = 0x00 then .ok i else .error (.immediateNotZero (opcodeOf w) (imm8Of w))

/-- R81, R83: the operation a host word encodes. -/
def decodeHost16 (w : Word) : Except DecodeError Instr :=
  match (opcodeOf w).toNat with
  | 1 => .ok (.cmd (imm8Of w))
  | 2 => .ok (.data (imm8Of w))
  | 3 => withoutImmediate w .reset
  | 4 => withoutImmediate w .init
  | 5 => withoutImmediate w .clear
  | 6 => withoutImmediate w .showFrame
  | 7 => withoutImmediate w .pack
  | _ => .error (.noSuchOpcode (opcodeOf w))

/-- R86: the controller command a byte formed by the block stands for. -/
def decodeCtrl8 (b : Byte) : Except DecodeError Instr :=
  if b.extractLsb' 3 5 = 0b10110 then .ok (.setPage (b.extractLsb' 0 3).toNat)
  else if b = 0x02 then .ok .setColLo
  else if b = 0x10 then .ok .setColHi
  else .error (.notCtrl8 b)

/-- The decoder. -/
def decode : InstrWord → Except DecodeError Instr
  | .host16 w => decodeHost16 w
  | .ctrl8 b => decodeCtrl8 b

/-- A host word from its two fields (R80). -/
def host16Of (opcode imm8 : Byte) : InstrWord := .host16 (opcode ++ imm8)

/-- The encoder, from the tables of R81 and R86. -/
def encode : Instr → InstrWord
  | .cmd imm8 => host16Of 0x01 imm8
  | .data imm8 => host16Of 0x02 imm8
  | .reset => host16Of 0x03 0x00
  | .init => host16Of 0x04 0x00
  | .clear => host16Of 0x05 0x00
  | .showFrame => host16Of 0x06 0x00
  | .pack => host16Of 0x07 0x00
  | .setPage page => .ctrl8 (0xB0 + BitVec.ofNat 8 page)
  | .setColLo => .ctrl8 0x02
  | .setColHi => .ctrl8 0x10

/-- A word of `nbits` bits numbered as spec/opcode_table.json numbers them: the table's 8-bit rows are
CTRL8, its 16-bit rows HOST16. -/
def tableWord (nbits w : Nat) : InstrWord :=
  if nbits ≤ 8 then .ctrl8 (BitVec.ofNat 8 w) else .host16 (BitVec.ofNat 16 w)

/-- What the decoder reads from a word of the opcode table. -/
def decodeTableWord (nbits w : Nat) : Option Instr := (decode (tableWord nbits w)).toOption

end Sys2Proof
end

