-- ==== Sys2Proof/Machine/State.lean ====
section
/-! DEFINITION. The machine's state as plain data (10_state.md), the bus events of its trace, what the
host can do to it, and the state after power-on. -/

namespace Sys2Proof.Machine

/-- `STATUS.DS` (R24, R33). The value 3, which never occurs, has no constructor. -/
inductive Lifecycle where
  /-- 0: no successful INIT since power-on or since RESET. -/
  | uninit
  /-- 1: INIT has ended OK. -/
  | ready
  /-- 2: a fault has occurred; only power-on leaves it (R185). -/
  | halt
  deriving DecidableEq, Repr, Inhabited

/-- `STATUS.FAULT`, the code of the first fault since power-on (R24, R180). The codes 6 to 15, which are
never written, have no constructor. -/
inductive FaultCode where
  /-- 0: no fault. -/
  | none
  /-- 1 `ILLEGAL_OP`: the word written to OP encodes no operation (R181). -/
  | illegalOp
  /-- 2 `SEQ`: the operation is not permitted in the current lifecycle state (R182). -/
  | seq
  /-- 3 `LENGTH`: SHOW with `FBLEN` other than 1024 (R135). -/
  | length
  /-- 4 `SHAPE`: PACK of an unsupported bitmap shape (R166). -/
  | shape
  /-- 5 `TRANSPORT`: a bus transfer failed (R115). -/
  | transport
  deriving DecidableEq, Repr, Inhabited

/-- A bus event (00_scope.md R15). `spiWr` and `i2cWr` are the transfers. -/
inductive Event where
  /-- `Pin(RST, v)`: the RST pin is driven to `v`. -/
  | pinRst (v : Level)
  /-- `Wait(ms)`: at least `ms` milliseconds pass (R218). -/
  | wait (ms : Nat)
  /-- `SpiWr(dc, b)`: one single-byte SPI write of `b` while DC is at `dc`. -/
  | spiWr (dc : Level) (b : Byte)
  /-- `I2cWr(reg, b)`: one I2C byte write of `b` to register `reg` of the device at `Config.i2cAddr`. -/
  | i2cWr (reg b : Byte)
  /-- `BusFail`: a transfer was attempted and failed (R115); it carries no byte. -/
  | busFail
  deriving DecidableEq, Repr

/-- A host move (R36). `OP` is register 0, so issuing an operation is `writeReg 0 w` (R28). -/
inductive HostMove where
  /-- Read a control register by number (R23). -/
  | readReg (n : Nat)
  /-- Write a control register by number (R23). -/
  | writeReg (n : Nat) (v : Word)
  /-- Read a framebuffer byte (R29). -/
  | readFB (a : Nat)
  /-- Write a framebuffer byte (R29). -/
  | writeFB (a : Nat) (v : Byte)
  /-- Read the pixel at column `x`, row `y` of the current shape (R30). -/
  | readPixel (x y : Nat)
  /-- Write the pixel at column `x`, row `y` of the current shape (R30, R89 `BM(x, y) = v`). -/
  | writePixel (x y : Nat) (p : Pixel)
  /-- Read a bitmap cell by its linear number (R30, R50). -/
  | readCell (n : Nat)
  /-- Write a bitmap cell by its linear number (R30, R50). -/
  | writeCell (n : Nat) (p : Pixel)
  deriving DecidableEq, Repr

/-- What a host read gives back. -/
inductive Reply where
  /-- The value of a control register. -/
  | reg (v : Word)
  /-- A framebuffer byte. -/
  | byte (v : Byte)
  /-- A bitmap pixel. -/
  | pixel (p : Pixel)
  deriving DecidableEq, Repr

/-- One thing the machine does next: a host move, or one command byte the sequencer forms and sends by
itself (R86; assumption 8). -/
inductive Input where
  /-- A move of the host. -/
  | host (m : HostMove)
  /-- A CTRL8 byte of the sequencer. -/
  | ctrl8 (b : Byte)
  deriving DecidableEq, Repr

/-- One kind of question to the environment oracle (R11): answers queued in advance, oldest first
(`true` is `ok`), and how many have been drawn. When none is queued the answer is a free value of
Config at that count (assumption 3). -/
structure Oracle where
  queued : List Bool
  drawn : Nat
  deriving DecidableEq, Repr

/-- A memory: the cells something has written, as (address, value) pairs with addresses strictly rising.
A cell not listed has been written by nothing since power-on (R35). -/
abbrev Memory (α : Type) := List (Nat × α)

/-- The state of the block (10_state.md section 1), and below the line the model's own fields. -/
structure State where
  /-- `sp`, the count of events the running operation has emitted (R21). -/
  sp : Nat
  /-- `STATUS.DS` (R24, R33). -/
  ds : Lifecycle
  /-- `STATUS.RET` (R24): `true` is 1. -/
  ret : Bool
  /-- `STATUS.FAULT` (R24, R180). -/
  fault : FaultCode
  /-- `FBLEN` (R25). -/
  fblen : Word
  /-- `BMW` (R26). -/
  bmw : Word
  /-- `BMH` (R26). -/
  bmh : Word
  /-- `CFG.TRANSPORT` (R27). -/
  transport : Transport
  /-- FB (R29). -/
  fb : List Host.Cell
  /-- BM (R30), by linear cell number. -/
  bm : Memory Pixel
  /-- `pin[RST]` (R31). -/
  pinRst : Level
  /-- `pin[DC]` (R31). -/
  pinDc : Level
  /-- `pin[CS]` (R31): no rule drives it. -/
  pinCs : Level
  /-- `pin[BL]` (R31): no rule drives it. -/
  pinBl : Level
  /-- `trace`, every bus event since power-on, in order of emission (R32). -/
  trace : List Event
  /-- MODEL'S OWN: what is to happen next, oldest first (assumption 2). -/
  inputs : List Input
  /-- MODEL'S OWN: what the host's reads have given back, oldest first (assumption 2). -/
  replies : List Reply
  /-- MODEL'S OWN: the oracle's `init_ok` answers (R132; assumption 3). -/
  initOracle : Oracle
  /-- MODEL'S OWN: the oracle's transfer answers (R115; assumption 3). -/
  busOracle : Oracle
  deriving DecidableEq, Repr

/-- Why a step stops with a fault: a host access the spec gives no meaning (20_memory.md R55: "A host
access outside a space's range has no meaning in this spec (the host has no such move)"). The block's own
faults (R180) are not these: they are next states in HALT. No instruction raises one. -/
inductive Fault where
  /-- A host access to an FB index outside `0..1023`. Raised by the host moves only; safe. -/
  | noSuchByte (a : Nat)
  /-- A host access to a BM cell number outside `0..8191`. Raised by the host moves only; safe. -/
  | noSuchCell (n : Nat)
  /-- A host access to a pixel outside the bitmap `BMW` by `BMH`. Raised by the host moves only; safe. -/
  | noSuchPixel (x y : Nat)
  deriving DecidableEq, Repr

/-- Why a step is refused. -/
inductive Refusal where
  /-- An instruction with no meaning yet. Raised by `exec`'s refused arms; safe. -/
  | notModelled (mnemonic : String)
  /-- A `ctrl8` input whose byte is none of the ten the block forms (R86). No meaning raises it; safe. -/
  | notCtrl8 (b : Byte)
  deriving DecidableEq, Repr

/-- Right after power-on (10_state.md R35, 70_reset_and_hazards.md R210): FB and BM list nothing, the
pins and the strap are parameters of Config, and no input, reply or oracle answer is queued. -/
def State.reset : State where
  sp := 0
  ds := .uninit
  ret := false
  fault := .none
  fblen := 0
  bmw := 0
  bmh := 0
  transport := Config.transport
  fb := []
  bm := []
  pinRst := Config.pinResetLevel .rst
  pinDc := Config.pinResetLevel .dc
  pinCs := Config.pinResetLevel .cs
  pinBl := Config.pinResetLevel .bl
  trace := []
  inputs := []
  replies := []
  initOracle := ⟨[], 0⟩
  busOracle := ⟨[], 0⟩

end Sys2Proof.Machine
end

