-- ==== Sys2Proof/Machine/Ops.lean ====
section
/-! DEFINITION. The operations every meaning is written over: memory, the oracle, emitting an event,
raising a fault (60_exceptions.md R184), the ways an operation ends (R186), the transport primitives
(40_transport.md R110 to R115) and the reset pulse (41_driver.md R130). -/

namespace Sys2Proof.Machine

/-- The value something has written at `a`, if anything has. -/
def Memory.read {α : Type} : Memory α → Nat → Option α
  | [], _ => none
  | (b, w) :: m, a => if a = b then some w else Memory.read m a

/-- Write one cell, keeping the addresses strictly rising. -/
def Memory.write {α : Type} : Memory α → Nat → α → Memory α
  | [], a, v => [(a, v)]
  | (b, w) :: m, a, v =>
    if a < b then (a, v) :: (b, w) :: m
    else if a = b then (a, v) :: m
    else (b, w) :: Memory.write m a v

/-- Addresses strictly rising, each at least `lo` and below `size`. -/
def Memory.sortedFrom {α : Type} (size : Nat) : Nat → Memory α → Bool
  | _, [] => true
  | lo, (a, _) :: m => decide (lo ≤ a) && decide (a < size) && Memory.sortedFrom size (a + 1) m

/-- The canonical form of a memory of `size` cells. An unlisted address holds nothing written, so no
entry can equal what it reads as. -/
def Memory.wf {α : Type} (size : Nat) (m : Memory α) : Bool := Memory.sortedFrom size 0 m

/-- `MemRead(a, 1)` (R14) of a framebuffer: a byte nothing has written is a free value (R35). -/
def fbByte (fb : List Host.Cell) (a : Nat) : Byte := (Memory.read fb a).getD (Config.fbPowerOn a)

/-- The bitmap cell of linear number `n` (R30): one nothing has written is a free value (R35). -/
def bmCell (bm : Memory Pixel) (n : Nat) : Pixel := (Memory.read bm n).getD (Config.bmPowerOn n)

/-- The oracle's answer to the `k`th question from now, counting from 0. -/
def Oracle.answer (free : Nat → Bool) (o : Oracle) (k : Nat) : Bool :=
  o.queued.getD k (free (o.drawn + k))

/-- The oracle after `k` more questions. -/
def Oracle.after (o : Oracle) (k : Nat) : Oracle := ⟨o.queued.drop k, o.drawn + k⟩

/-- Will the `k`th transfer from now succeed? (R115) -/
def State.transferOk (s : State) (k : Nat) : Bool := s.busOracle.answer Config.freeTransferOk k

/-- Will the next bus/GPIO initialization succeed? (R132) -/
def State.initOk (s : State) : Bool := s.initOracle.answer Config.freeInitOk 0

/-- `trace <- trace ++ [e]; sp <- sp + 1` (R115, R21). For an event that cannot fail this is `emit`. -/
def State.append (s : State) (e : Event) : State := { s with trace := s.trace ++ [e], sp := s.sp + 1 }

/-- `raise Fault(code)` (R184): the operation ends here and every effect so far stays. -/
def raise (code : FaultCode) (s : State) : State :=
  { s with fault := code, ds := .halt, ret := true, sp := 0 }

/-- `return FAIL` (R186). -/
def returnFail (s : State) : State := { s with ret := true, sp := 0 }

/-- Reaching the end of an operation (R186 step 5). -/
def finish (s : State) : State := { s with ret := false, sp := 0 }

/-- A write to OP while halted (R185, R186 step 1). -/
def refuseHalted (s : State) : State := { s with ret := true }

/-- An operation in progress: still running, or ended early by a raise or by `return FAIL`. -/
inductive Run where
  | running (s : State)
  | ended (s : State)
  deriving DecidableEq, Repr

/-- Go on with `f` unless the operation has ended. -/
def Run.andThen (r : Run) (f : State → Run) : Run :=
  match r with
  | .running s => f s
  | .ended s => .ended s

/-- `for i in …:` (R14): the body at each element in order, until the operation ends. -/
def forEach {α : Type} : List α → (α → State → Run) → State → Run
  | [], _, s => .running s
  | a :: l, body, s => (body a s).andThen (forEach l body)

/-- `emit(e)` for a transfer (R115): the oracle draws `ok` or `fail`. -/
def transfer (e : Event) (s : State) : Run :=
  let drawn := { s with busOracle := s.busOracle.after 1 }
  if s.transferOk 0 then .running (drawn.append e)
  else .ended (raise .transport (drawn.append .busFail))

/-- `SendCommand(b)` (R110 on SPI, R111 on I2C). -/
def sendCommand (b : Byte) (s : State) : Run :=
  match s.transport with
  | .spi => transfer (.spiWr .low b) { s with pinDc := .low }
  | .i2c => transfer (.i2cWr 0x00 b) s

/-- `SendData(b)` (R112 on SPI, R113 on I2C). -/
def sendData (b : Byte) (s : State) : Run :=
  match s.transport with
  | .spi => transfer (.spiWr .high b) { s with pinDc := .high }
  | .i2c => transfer (.i2cWr 0x40 b) s

/-- One step of the reset pulse (R130): drive RST and let it settle. -/
def driveReset (v : Level) (s : State) : State :=
  ({ s with pinRst := v }.append (.pinRst v)).append (.wait Config.settleMs)

/-- `HwReset()` (R130): high, low, high. -/
def hwReset (s : State) : State := driveReset .high (driveReset .low (driveReset .high s))

/-- How the frame ends an operation's pseudocode (R186 step 5). -/
def Run.close : Run → State
  | .running s => finish s
  | .ended s => s

/-- The operation frame of a legal word (R186 steps 1, 3, 4, 5): refused while halted, `SEQ` where R187
does not permit it, and otherwise run with `sp` at 0. -/
def operation (permitted : Lifecycle → Bool) (body : State → Run) (s : State) : State :=
  if s.ds = .halt then refuseHalted s
  else if permitted s.ds then (body { s with sp := 0 }).close
  else raise .seq s

/-- A write to OP of an illegal word (R186 steps 1 and 2, R181). -/
def illegalWord (s : State) : State :=
  if s.ds = .halt then refuseHalted s else raise .illegalOp s

/-- One command byte the sequencer forms, sent as a sequence of its own (assumption 8): nothing in HALT,
where nothing executes (R184), and no lifecycle check and no `RET`, which belong to operations. -/
def sequencerByte (b : Byte) (s : State) : State :=
  if s.ds = .halt then s
  else
    match sendCommand b { s with sp := 0 } with
    | .running t => { t with sp := 0 }
    | .ended t => t

end Sys2Proof.Machine
end

