-- ==== Sys2Proof/Machine/Flags.lean ====
section
/-! DEFINITION. The control registers as the host sees them (10_state.md R23 to R28): STATUS and CFG are
words computed from their fields, OP reads as 0, and numbers above 5 do not exist. The block has no other
flags (R22). -/

namespace Sys2Proof.Machine

/-- The two bits of `STATUS.DS` (R24). -/
def Lifecycle.code : Lifecycle → BitVec 2
  | .uninit => 0
  | .ready => 1
  | .halt => 2

/-- The four bits of `STATUS.FAULT` (R24, R180). -/
def FaultCode.code : FaultCode → BitVec 4
  | .none => 0
  | .illegalOp => 1
  | .seq => 2
  | .length => 3
  | .shape => 4
  | .transport => 5

/-- STATUS (R24): `DS` in bits 1:0, `RET` in bit 2, `FAULT` in bits 7:4, and 0 in every other bit. -/
def statusWord (s : State) : Word :=
  0#8 ++ s.fault.code ++ 0#1 ++ BitVec.ofBool s.ret ++ s.ds.code

/-- Bit 0 of CFG (R27). -/
def transportBit : Transport → BitVec 1
  | .spi => 0
  | .i2c => 1

/-- CFG (R27): `TRANSPORT` in bit 0, and 0 in every other bit. -/
def cfgWord (s : State) : Word := 0#15 ++ transportBit s.transport

/-- `x[n]`, the value the host reads in control register `n` (R23). -/
def readReg (s : State) (n : Nat) : Word :=
  match n with
  | 0 => 0
  | 1 => statusWord s
  | 2 => s.fblen
  | 3 => s.bmw
  | 4 => s.bmh
  | 5 => cfgWord s
  | _ => 0

/-- A host write of a control register other than OP (R23): STATUS, CFG and numbers above 5 ignore it. -/
def writeReg (s : State) (n : Nat) (v : Word) : State :=
  match n with
  | 2 => { s with fblen := v }
  | 3 => { s with bmw := v }
  | 4 => { s with bmh := v }
  | _ => s

/-- Permitted in READY only: CMD, DATA, CLEAR, SHOW (R187). -/
def whenReady : Lifecycle → Bool
  | .uninit => false
  | .ready => true
  | .halt => false

/-- Permitted in UNINIT only: INIT (R187). -/
def whenUninit : Lifecycle → Bool
  | .uninit => true
  | .ready => false
  | .halt => false

/-- Permitted in UNINIT and READY: RESET, PACK (R187). -/
def whenNotHalted : Lifecycle → Bool
  | .uninit => true
  | .ready => true
  | .halt => false

end Sys2Proof.Machine
end

