-- ==== Sys2Proof/Machine/Operands.lean ====
section
/-! DEFINITION. Where operands and results are: pixels in BM (10_state.md R30), bytes and bits in FB
(20_memory.md R51, 42_packer.md R161, R162), the bytes the driver forms (30_encoding.md R86, R87). -/

namespace Sys2Proof.Machine

/-- The linear number of the pixel at column `x`, row `y` (R30): `x + y * BMW`. -/
def pixelCell (s : State) (x y : Nat) : Nat := x + y * s.bmw.toNat

/-- `Pix(x, y)` (R14, R30). -/
def pix (s : State) (x y : Nat) : Pixel := bmCell s.bm (pixelCell s x y)

/-- Every pixel of a `w` by `h` bitmap, row after row (R160's loops). -/
def grid (w h : Nat) : List (Nat × Nat) :=
  (List.range h).flatMap fun y => (List.range w).map fun x => (x, y)

/-- The FB index an ink pixel falls on in the native shape (R161). -/
def nativeIndex (x y : Nat) : Nat := x + (y / 8) * Config.width

/-- The FB index an ink pixel falls on in the rotated shape (R162): `newx = y`, `newy = height - x - 1`. -/
def rotatedIndex (x y : Nat) : Nat := y + ((Config.height - x - 1) / 8) * Config.width

/-- The bit an ink pixel clears, in both shapes (R161, R162): the original `y mod 8`. -/
def pixelBit (y : Nat) : Nat := y % 8

/-- `MemWrite(i, 1, MemRead(i, 1) & ~(1 << k))` (R160). -/
def clearBit (fb : List Host.Cell) (i k : Nat) : List Host.Cell :=
  Memory.write fb i (fbByte fb i &&& ~~~(1#8 <<< k))

/-- Every FB byte set to `v` (R163, R136): all 1024 cells, whatever they held. -/
def filledFB (v : Byte) : List Host.Cell := (List.range Config.fbSize).map fun i => (i, v)

/-- A blank FB (R52). -/
def blankFB : List Host.Cell := filledFB 0xFF

/-- The byte SETPAGE stands for (R86): `0xB0 + page`. -/
def pageSelect (page : Nat) : Byte := 0xB0 + BitVec.ofNat 8 page

/-- The byte SETCOLLO stands for (R86). -/
def colLow : Byte := 0x02

/-- The byte SETCOLHI stands for (R86). -/
def colHigh : Byte := 0x10

/-- The level a pin holds (R31). -/
def pinLevel (s : State) : Pin → Level
  | .rst => s.pinRst
  | .dc => s.pinDc
  | .cs => s.pinCs
  | .bl => s.pinBl

/-- The level of the platform's pin of a BCM number, if the block drives that pin (R8). -/
def levelAtBcm (s : State) (n : Nat) : Option Level :=
  ([Pin.rst, Pin.dc, Pin.cs, Pin.bl].find? fun p => p.bcm = n).map (pinLevel s)

/-- The I2C device an event addresses, if it is an I2C write (R15, R57). -/
def Event.device : Event → Option (BitVec 7)
  | .i2cWr _ _ => some Config.i2cAddr
  | _ => none

/-- How chip-select moves around an event, if it is an SPI byte (R10 `CS_FRAMING`): a view, since no event carries
CS and no rule writes `pin[CS]` (R31). -/
def Event.chipSelect : Event → Option ChipSelectFraming
  | .spiWr _ _ => some Config.csFraming
  | _ => none

/-- The data byte SHOW sends for a framebuffer byte (R87): every bit inverted. -/
def shownByte (v : Byte) : Byte := ~~~v

end Sys2Proof.Machine
end

