-- ==== Sys2Proof/Machine/Controller.lean ====
section
/-! DEFINITION. The three command bytes the block forms itself (30_encoding.md R86): SETPAGE, SETCOLLO,
SETCOLHI, each as the single `SendCommand` that `ShowPages()` (41_driver.md R134) makes of it. What the
display controller does with the byte is outside the block (00_scope.md R4 (c)). -/

namespace Sys2Proof.Machine

/-- SETPAGE page (R86): `SendCommand(0xB0 + page)`. -/
def execSetPage (page : Nat) (s : State) : Host.Outcome State Fault Refusal :=
  .next (sequencerByte (pageSelect page) s)

/-- SETCOLLO (R86): `SendCommand(0x02)`. -/
def execSetColLo (s : State) : Host.Outcome State Fault Refusal :=
  .next (sequencerByte colLow s)

/-- SETCOLHI (R86): `SendCommand(0x10)`. -/
def execSetColHi (s : State) : Host.Outcome State Fault Refusal :=
  .next (sequencerByte colHigh s)

end Sys2Proof.Machine
end

