-- ==== Sys2Proof/Machine/Driver.lean ====
section
/-! DEFINITION. The driver family (41_driver.md): RESET, INIT, CLEAR, SHOW. -/

namespace Sys2Proof.Machine

/-- One page of `ShowPages()` (R134): the three addressing commands, then the page's 128 bytes. -/
def sendPage (page : Nat) (s : State) : Run :=
  (sendCommand (pageSelect page) s).andThen fun s =>
  (sendCommand colLow s).andThen fun s =>
  (sendCommand colHigh s).andThen fun s =>
  forEach (List.range Config.width)
    (fun c s => sendData (shownByte (fbByte s.fb (Config.width * page + c))) s) s

/-- `ShowPages()` (R134): pages 0 to 7 in order. -/
def showPages (s : State) : Run := forEach (List.range Config.pages) sendPage s

/-- The body of INIT (R132), for a given `INIT_SEQ`. -/
def initDisplay (initSeq : List Byte) (s : State) : Run :=
  let drawn := { s with initOracle := s.initOracle.after 1 }
  if s.initOk then
    (forEach initSeq sendCommand (hwReset drawn)).andThen fun t => .running { t with ds := .ready }
  else .ended (returnFail drawn)

/-- The body of RESET (R131). -/
def resetDisplay (s : State) : Run := .running { hwReset s with ds := .uninit }

/-- The body of SHOW (R135): the length check comes before the first event. -/
def showBuffer (s : State) : Run :=
  if s.fblen = 1024 then showPages s else .ended (raise .length s)

/-- The body of CLEAR (R136). -/
def clearDisplay (s : State) : Run := showPages { s with fb := blankFB, fblen := 1024 }

/-- RESET (R131). -/
def execReset (s : State) : Host.Outcome State Fault Refusal :=
  .next (operation whenNotHalted resetDisplay s)

/-- INIT (R132). -/
def execInit (s : State) : Host.Outcome State Fault Refusal :=
  .next (operation whenUninit (initDisplay Config.initSeq) s)

/-- CLEAR (R136). -/
def execClear (s : State) : Host.Outcome State Fault Refusal :=
  .next (operation whenReady clearDisplay s)

/-- SHOW (R135). -/
def execShow (s : State) : Host.Outcome State Fault Refusal :=
  .next (operation whenReady showBuffer s)

end Sys2Proof.Machine
end

