-- ==== Sys2Proof/Machine/Packer.lean ====
section
/-! DEFINITION. The packer family (42_packer.md): PACK. -/

namespace Sys2Proof.Machine

/-- What one pixel does to FB in the loops of R160: ink clears its bit, background nothing. -/
def paintPixel (p : Nat → Nat → Pixel) (index : Nat → Nat → Nat) (fb : List Host.Cell) (at_ : Nat × Nat) :
    List Host.Cell :=
  match p at_.1 at_.2 with
  | .ink => clearBit fb (index at_.1 at_.2) (pixelBit at_.2)
  | .background => fb

/-- The pixels of `visits` painted in that order over `fb` (R160, R169). -/
def paint (p : Nat → Nat → Pixel) (index : Nat → Nat → Nat) (visits : List (Nat × Nat))
    (fb : List Host.Cell) : List Host.Cell :=
  visits.foldl (paintPixel p index) fb

/-- The buffer of a native bitmap (R160, R161): the fill of R163, then every pixel. -/
def packNative (p : Nat → Nat → Pixel) : List Host.Cell :=
  paint p nativeIndex (grid Config.width Config.height) blankFB

/-- The buffer of a rotated bitmap (R160, R162): the fill of R163, then every pixel. -/
def packRotated (p : Nat → Nat → Pixel) : List Host.Cell :=
  paint p rotatedIndex (grid Config.height Config.width) blankFB

/-- The body of PACK (R160): the native test first (R171), and `SHAPE` before FB is written (R166). -/
def packBitmap (s : State) : Run :=
  if s.bmw = 128 ∧ s.bmh = 64 then .running { s with fb := packNative (pix s), fblen := 1024 }
  else if s.bmw = 64 ∧ s.bmh = 128 then .running { s with fb := packRotated (pix s), fblen := 1024 }
  else .ended (raise .shape s)

/-- PACK (R160). -/
def execPack (s : State) : Host.Outcome State Fault Refusal :=
  .next (operation whenNotHalted packBitmap s)

end Sys2Proof.Machine
end

