-- ==== Sys2Proof/Machine/Transport.lean ====
section
/-! DEFINITION. The transport family (40_transport.md): CMD and DATA. -/

namespace Sys2Proof.Machine

/-- CMD imm8 (R116). -/
def execCmd (imm8 : Byte) (s : State) : Host.Outcome State Fault Refusal :=
  .next (operation whenReady (sendCommand imm8) s)

/-- DATA imm8 (R117): the byte as it stands, not inverted. -/
def execData (imm8 : Byte) (s : State) : Host.Outcome State Fault Refusal :=
  .next (operation whenReady (sendData imm8) s)

end Sys2Proof.Machine
end

