-- ==== Sys2Proof/Machine/Dispatch.lean ====
section
/-! DEFINITION. What each instruction does: one arm per constructor of Instr. -/

namespace Sys2Proof.Machine

def exec (i : Instr) (s : State) : Host.Outcome State Fault Refusal :=
  match i with
  | .cmd imm8 => Sys2Proof.Machine.execCmd imm8 s
  | .data imm8 => Sys2Proof.Machine.execData imm8 s
  | .reset => Sys2Proof.Machine.execReset s
  | .init => Sys2Proof.Machine.execInit s
  | .clear => Sys2Proof.Machine.execClear s
  | .showFrame => Sys2Proof.Machine.execShow s
  | .pack => Sys2Proof.Machine.execPack s
  | .setPage page => Sys2Proof.Machine.execSetPage page s
  | .setColLo => Sys2Proof.Machine.execSetColLo s
  | .setColHi => Sys2Proof.Machine.execSetColHi s

end Sys2Proof.Machine
end

