-- ==== Sys2Proof/Machine/HostMoves.lean ====
section
/-! DEFINITION. The host's moves (10_state.md R36, R28; 60_exceptions.md R186), the sequencer's own bytes, and
the host programs the spec writes with them (30_encoding.md R89, R90). -/

namespace Sys2Proof.Machine

/-- `OP <- w` (R28, R186): a legal word runs its operation, an illegal one raises `ILLEGAL_OP`. -/
def writeOp (w : Word) (s : State) : Host.Outcome State Fault Refusal :=
  match decode (.host16 w) with
  | .ok i => exec i s
  | .error _ => .next (illegalWord s)

/-- A host read gives `r` back and changes nothing else (R56). -/
def State.reply (s : State) (r : Reply) : State := { s with replies := s.replies ++ [r] }

/-- Is there a pixel at `(x, y)`? (R30: `0 <= x < BMW`, `0 <= y < BMH`, and a cell of BM to hold it.) -/
def hasPixel (s : State) (x y : Nat) : Bool :=
  decide (x < s.bmw.toNat) && decide (y < s.bmh.toNat) && decide (pixelCell s x y < Config.bmSize)

/-- Where on its side the host makes a move (R10 `HOST_MAP`): a view, since no move depends on it. -/
def hostPlace (s : State) : HostMove → HostPlace
  | .readReg n => Config.hostMap .reg n
  | .writeReg n _ => Config.hostMap .reg n
  | .readFB a => Config.hostMap .fb a
  | .writeFB a _ => Config.hostMap .fb a
  | .readPixel x y => Config.hostMap .bm (pixelCell s x y)
  | .writePixel x y _ => Config.hostMap .bm (pixelCell s x y)
  | .readCell n => Config.hostMap .bm n
  | .writeCell n _ => Config.hostMap .bm n

/-- One move of the host (R36), in every lifecycle state alike (R185, R187). -/
def hostMove (m : HostMove) (s : State) : Host.Outcome State Fault Refusal :=
  match m with
  | .readReg n => .next (s.reply (.reg (readReg s n)))
  | .writeReg n v => if n = 0 then writeOp v s else .next (writeReg s n v)
  | .readFB a =>
    if a < Config.fbSize then .next (s.reply (.byte (fbByte s.fb a))) else .fault (.noSuchByte a)
  | .writeFB a v =>
    if a < Config.fbSize then .next { s with fb := Memory.write s.fb a v } else .fault (.noSuchByte a)
  | .readPixel x y =>
    if hasPixel s x y then .next (s.reply (.pixel (pix s x y))) else .fault (.noSuchPixel x y)
  | .writePixel x y p =>
    if hasPixel s x y then .next { s with bm := Memory.write s.bm (pixelCell s x y) p }
    else .fault (.noSuchPixel x y)
  | .readCell n =>
    if n < Config.bmSize then .next (s.reply (.pixel (bmCell s.bm n))) else .fault (.noSuchCell n)
  | .writeCell n p =>
    if n < Config.bmSize then .next { s with bm := Memory.write s.bm n p } else .fault (.noSuchCell n)

/-- One CTRL8 byte of the sequencer (R86; assumption 8). -/
def sequencerInput (b : Byte) (s : State) : Host.Outcome State Fault Refusal :=
  match decode (.ctrl8 b) with
  | .ok i => exec i s
  | .error _ => .refused (.notCtrl8 b)

/-- What an input does. -/
def takeInput (x : Input) (s : State) : Host.Outcome State Fault Refusal :=
  match x with
  | .host m => hostMove m s
  | .ctrl8 b => sequencerInput b s

/-- Take the next input; with none the block waits for the host's next move (R210). -/
def takeNext (s : State) : Host.Outcome State Fault Refusal :=
  match s.inputs with
  | [] => .next s
  | x :: rest => takeInput x { s with inputs := rest }

/-- The input that carries an encoded instruction to the block: a host word is written to OP, a CTRL8 byte
is the sequencer's own. -/
def inputOf : InstrWord → Input
  | .host16 w => .host (.writeReg 0 w)
  | .ctrl8 b => .ctrl8 b

/-- The state whose next input is a word of the opcode table. -/
def placeWord (s : State) (nbits w : Nat) : State :=
  { s with inputs := inputOf (tableWord nbits w) :: s.inputs }

/-- `OP <- w` for an instruction's own word: one line of a host program (R89). -/
def issue (i : Instr) : Input := inputOf (encode i)

/-- `SET FBLEN, n`, `SET BMW, n`, `SET BMH, n` (R89), by register number. -/
def setReg (n : Nat) (v : Word) : Input := .host (.writeReg n v)

/-- `SHAPE native` (R90). -/
def shapeNative : List Input := [setReg 3 128, setReg 4 64]

/-- `SHAPE rotated` (R90). -/
def shapeRotated : List Input := [setReg 3 64, setReg 4 128]

/-- `DISPLAY` (R90): PACK then SHOW. -/
def displayFrame : List Input := [issue .pack, issue .showFrame]

/-- `BM = all v` (R89) for a bitmap of shape `w` by `h`. -/
def fillBitmap (w h : Nat) (p : Pixel) : List Input :=
  (grid w h).map fun at_ => .host (.writePixel at_.1 at_.2 p)

end Sys2Proof.Machine
end

