-- ==== Sys2Proof/Machine/Step.lean ====
section
/-! DEFINITION. One step of the machine: one host move taken to its end, because an operation is one
indivisible step for the host (10_state.md R36), or one byte of the sequencer's own. -/

namespace Sys2Proof.Machine

/-- One step. -/
def step (s : State) : Host.Outcome State Fault Refusal := Sys2Proof.Machine.takeNext s

/-- `s` with a word of the opcode table as the block's very next input (assumption 9). -/
def State.withFetchWord (s : State) (nbits w : Nat) : State := Sys2Proof.Machine.placeWord s nbits w

end Sys2Proof.Machine
end

