-- ==== Sys2Proof/Safety.lean ====
section
/-! DEFINITION. The terms claims are stated in: what the oracle answers, the events the bus rules give
(30_encoding.md R85, 41_driver.md R130, R137), when a run is final (70_reset_and_hazards.md R220), and what
is true between steps. -/

namespace Sys2Proof.Machine

/-- The oracle answers `ok` at each of the next `n` transfers (R115). -/
def TransfersOk (s : State) (n : Nat) : Prop := ∀ k, k < n → s.transferOk k = true

/-- The oracle answers `ok` at the next `n` transfers and `fail` at the one after them (R115). -/
def TransferFailsAt (s : State) (n : Nat) : Prop := TransfersOk s n ∧ s.transferOk n = false

/-- The event of a command byte (R85). -/
def commandEvent : Transport → Byte → Event
  | .spi, b => .spiWr .low b
  | .i2c, b => .i2cWr 0x00 b

/-- The event of a data byte (R85). -/
def dataEvent : Transport → Byte → Event
  | .spi, b => .spiWr .high b
  | .i2c, b => .i2cWr 0x40 b

/-- `pin[DC]` once it has been driven to `v` for a transfer (R31): only on SPI is it driven. -/
def dcDriven (v : Level) : Transport → Level → Level
  | .spi, _ => v
  | .i2c, old => old

/-- The six events of the reset pulse (R130). -/
def resetPulse : List Event :=
  [.pinRst .high, .wait 100, .pinRst .low, .wait 100, .pinRst .high, .wait 100]

/-- How many events `ShowPages()` emits (R137), all of them transfers. -/
abbrev showLength : Nat := 1048

/-- The events of one page (R134): the three addressing commands, then the page's 128 bytes in column
order, each inverted (R87). -/
def pageEvents (t : Transport) (fb : List Host.Cell) (page : Nat) : List Event :=
  commandEvent t (0xB0 + BitVec.ofNat 8 page) :: commandEvent t 0x02 :: commandEvent t 0x10 ::
    (List.range 128).map fun c => dataEvent t (~~~fbByte fb (128 * page + c))

/-- The events of a whole `ShowPages()` (R134): pages 0 to 7 in order. -/
def frameEvents (t : Transport) (fb : List Host.Cell) : List Event :=
  (List.range 8).flatMap (pageEvents t fb)

/-- The event at position `n` of `ShowPages()` as R137 gives it: with `page = n div 131` and `k = n mod 131`,
three addressing commands at `k` 0, 1, 2 and then the page's data bytes, inverted. -/
def showEvent (t : Transport) (fb : List Host.Cell) (n : Nat) : Event :=
  if n % 131 = 0 then commandEvent t (0xB0 + BitVec.ofNat 8 (n / 131))
  else if n % 131 = 1 then commandEvent t 0x02
  else if n % 131 = 2 then commandEvent t 0x10
  else dataEvent t (~~~fbByte fb (128 * (n / 131) + (n % 131 - 3)))

/-- `pin[DC]` while the transfer at position `n` of `ShowPages()` goes out (R110 to R113). -/
def showDc (t : Transport) (n : Nat) (old : Level) : Level :=
  dcDriven (if n % 131 < 3 then .low else .high) t old

/-- Is the event a command byte's? (R85) -/
def Event.isCommand : Event → Bool
  | .spiWr .low _ => true
  | .i2cWr reg _ => decide (reg = 0x00)
  | _ => false

/-- Is the event a data byte's? (R85) -/
def Event.isData : Event → Bool
  | .spiWr .high _ => true
  | .i2cWr reg _ => decide (reg = 0x40)
  | _ => false

/-- The events of a frame as R137 gives them: 1048, each the one of its position, FB byte `a` at
`131 * (a div 128) + 3 + a mod 128`, 24 commands and 1024 data bytes. -/
structure IsFrame (t : Transport) (fb : List Host.Cell) (events : List Event) : Prop where
  length_eq : events.length = 1048
  event_at : ∀ n, n < 1048 → events[n]? = some (showEvent t fb n)
  byte_at : ∀ a, a < 1024 → events[131 * (a / 128) + 3 + a % 128]? = some (dataEvent t (~~~fbByte fb a))
  commands : (events.filter Event.isCommand).length = 24
  data : (events.filter Event.isData).length = 1024

/-- The events a transport can produce (R85, R130): an SPI write only on SPI, an I2C write only on I2C and
then to register `0x00` or `0x40`, and no wait but the settle time. -/
def Event.fits : Transport → Event → Bool
  | _, .pinRst _ => true
  | _, .wait ms => decide (ms = 100)
  | .spi, .spiWr _ _ => true
  | .i2c, .spiWr _ _ => false
  | .spi, .i2cWr _ _ => false
  | .i2c, .i2cWr reg _ => decide (reg = 0x00 ∨ reg = 0x40)
  | _, .busFail => true

/-- Every level of the reset line is held for the settle time of 100 ms before anything else happens (R215). -/
def settled : List Event → Bool
  | [] => true
  | .pinRst _ :: .wait ms :: rest => decide (ms = Config.settleMs) && settled rest
  | .pinRst _ :: _ => false
  | .wait _ :: rest => settled rest
  | .spiWr _ _ :: rest => settled rest
  | .i2cWr _ _ :: rest => settled rest
  | .busFail :: rest => settled rest

/-- The state is one a run may end well in (R220): no fault has occurred. -/
def State.final (s : State) : Bool := decide (s.fault = .none)

/-- A safe run (R220): `n` steps of the machine from `s` stop at no fault or refusal and end final. -/
def SafeRun (s : State) (n : Nat) : Prop :=
  ∃ t, Host.Core.run
    { State := State, Fault := Fault, Refusal := Refusal, step := step, reset := State.reset } n s = .next t ∧
    t.final = true

/-- What holds between steps: `DS = HALT` exactly when a fault is recorded (R24); a fault leaves `RET = 1`
(R184); no operation is running, so `sp = 0` (R21); FB and BM are in canonical form; and `BusFail` stands
nowhere but at the end of the trace, and there exactly when the fault is `TRANSPORT` (R115). -/
structure State.Inv (s : State) : Prop where
  halt_iff_fault : s.ds = .halt ↔ s.fault ≠ .none
  ret_of_halt : s.ds = .halt → s.ret = true
  sp_zero : s.sp = 0
  fb_wf : Memory.wf Config.fbSize s.fb = true
  bm_wf : Memory.wf Config.bmSize s.bm = true
  busFail_last : ∀ e ∈ s.trace.dropLast, e ≠ .busFail
  busFail_iff : s.trace.getLast? = some .busFail ↔ s.fault = .transport

/-- Every event so far is one the transport can produce. -/
def State.TraceFits (s : State) : Prop := ∀ e ∈ s.trace, e.fits s.transport = true

end Sys2Proof.Machine
end

