-- ==== Sys2Proof/Certificates/Slice0/Obligations.lean ====
section
/-! DEFINITION. The statements for the provers, each with the rule of spec/ it formalises. "Stated" and
"derived" are said in OBLIGATIONS.json. Where a clause rests on a choice of the model or on an inference the
spec marks as its own, the docstring says so. A host word is a number here: `0x0400` is what the host writes
to OP for INIT. -/

open Sys2Proof Sys2Proof.Machine

/-! ### Encoding -/

/-- Every well-formed instruction is what its own encoding decodes to: no bit of an operand is dropped
(30_encoding.md R80 to R82, R86). Of the CTRL8 bytes the decoder is the model's own: the block never decodes one
(assumption 8). -/
def Obligations.DecodeOfEncodeIsTheInstruction : Prop :=
  ∀ i : Instr, i.wellFormed = true → decode (encode i) = .ok i

/-- Every word that decodes is the encoding of what it decodes to, and that is well-formed: no second
spelling exists (30_encoding.md R81, R83, R84). For the CTRL8 bytes this is about the model's own decoder, by the
masks of R86: the block only emits them and never decodes one (assumption 8). -/
def Obligations.EncodeOfDecodeIsTheWord : Prop :=
  ∀ (w : InstrWord) (i : Instr), decode w = .ok i → i.wellFormed = true ∧ encode i = w

/-- R83: a host word is illegal when its opcode is 0 or 8 and above, or when it is 3 to 7 and imm8 is not 0;
exactly 517 words are legal; and writing an illegal word to OP, while not halted (R181), raises ILLEGAL_OP
with no other effect. -/
def Obligations.IllegalHostWordsFault : Prop :=
  (∀ w : Word, (∃ e, decode (.host16 w) = .error e) ↔
    (w.toNat / 256 = 0 ∨ 8 ≤ w.toNat / 256 ∨
      (3 ≤ w.toNat / 256 ∧ w.toNat / 256 ≤ 7 ∧ w.toNat % 256 ≠ 0))) ∧
  (∃ l : List Word, l.Nodup ∧ l.length = 517 ∧ ∀ w, w ∈ l ↔ ∃ i, decode (.host16 w) = .ok i) ∧
  ∀ (w : Word) (e : DecodeError) (s : State), decode (.host16 w) = .error e → s.ds ≠ .halt →
    hostMove (.writeReg 0 w) s = .next { s with fault := .illegalOp, ds := .halt, ret := true, sp := 0 }

/-- Words written out from the encodings of R81 and R86, and what they stand for. The nine host words are those of
95_test_vectors.md E1, E3 to E8, E12 and E14. The three CTRL8 bytes are R86's, and that they decode is the model's
choice: the block only emits them and never decodes one (assumption 8). -/
def Obligations.TableWordsDecodeAsWritten : Prop :=
  decodeTableWord 16 0b0000000110101111 = some (.cmd 0xAF) ∧
  decodeTableWord 16 0b0000001011111111 = some (.data 0xFF) ∧
  decodeTableWord 16 0b0000001100000000 = some .reset ∧
  decodeTableWord 16 0b0000010000000000 = some .init ∧
  decodeTableWord 16 0b0000010100000000 = some .clear ∧
  decodeTableWord 16 0b0000011000000000 = some .showFrame ∧
  decodeTableWord 16 0b0000011100000000 = some .pack ∧
  decodeTableWord 8 0b10110101 = some (.setPage 5) ∧
  decodeTableWord 8 0b00000010 = some .setColLo ∧
  decodeTableWord 8 0b00010000 = some .setColHi ∧
  decodeTableWord 16 0b0000001100000001 = none ∧
  decodeTableWord 16 0b0000000010101111 = none

/-- R86: the bytes of the three command rows; that `0xB0 + page` is `0xB0 | page` for a page of `0..7`; that the
match and mask of each row recognise its bytes and no other, with `page = byte[2:0]`; and that `ShowPages()` sends
them: the page of number `page` starts with the commands that SETPAGE, SETCOLLO and SETCOLHI encode. (Which bytes
those are is the encoder's clause; that the three are instructions at all is the model's choice, assumption 8.) -/
def Obligations.ControllerBytesAreTheOnesShowPagesSends : Prop :=
  (∀ page, page < 8 → encode (.setPage page) = .ctrl8 (0xB0 + BitVec.ofNat 8 page) ∧
    (0xB0 : Byte) + BitVec.ofNat 8 page = 0xB0 ||| BitVec.ofNat 8 page) ∧
  encode .setColLo = .ctrl8 0x02 ∧ encode .setColHi = .ctrl8 0x10 ∧
  (∀ (b : Byte) (page : Nat), page < 8 ∧ encode (.setPage page) = .ctrl8 b ↔
    b &&& 0xF8 = 0xB0 ∧ page = b.toNat % 8) ∧
  (∀ b : Byte, encode .setColLo = .ctrl8 b ↔ b &&& 0xFF = 0x02) ∧
  (∀ b : Byte, encode .setColHi = .ctrl8 b ↔ b &&& 0xFF = 0x10) ∧
  (∀ (page : Nat) (s : State), TransfersOk s 131 → ∃ (t : State) (data : List Event) (b0 b1 b2 : Byte),
    sendPage page s = .running t ∧ data.length = 128 ∧
    t.trace = s.trace ++ [commandEvent s.transport b0, commandEvent s.transport b1,
      commandEvent s.transport b2] ++ data ∧
    encode (.setPage page) = .ctrl8 b0 ∧ encode .setColLo = .ctrl8 b1 ∧ encode .setColHi = .ctrl8 b2) ∧
  ∀ s : State, TransfersOk s 1048 → ∃ (t : State) (events : List Event),
    showPages s = .running t ∧ t.trace = s.trace ++ events ∧ events.length = 1048 ∧
    ∀ page, page < 8 → ∃ b0 b1 b2 : Byte,
      (events.drop (131 * page)).take 3 = [commandEvent s.transport b0, commandEvent s.transport b1,
        commandEvent s.transport b2] ∧
      encode (.setPage page) = .ctrl8 b0 ∧ encode .setColLo = .ctrl8 b1 ∧ encode .setColHi = .ctrl8 b2

/-- The model's decoder of command bytes (assumption 8: the block itself only emits them) reads them by the match
and mask of R86's rows. -/
def Obligations.ControllerBytesDecodeByTheirMasks : Prop :=
  (∀ (b : Byte) (page : Nat), decode (.ctrl8 b) = .ok (.setPage page) ↔
    b &&& 0xF8 = 0xB0 ∧ page = b.toNat % 8) ∧
  (∀ b : Byte, decode (.ctrl8 b) = .ok .setColLo ↔ b &&& 0xFF = 0x02) ∧
  ∀ b : Byte, decode (.ctrl8 b) = .ok .setColHi ↔ b &&& 0xFF = 0x10

/-! ### The step, reset and invariants -/

/-- A step runs the instruction the next input's word decodes to, on the state whose input has been taken
(10_state.md R28; a CTRL8 input is the model's own, assumption 8); with no input the block waits (R210). -/
def Obligations.StepRunsTheDecodedInstruction : Prop :=
  (∀ (s : State) (w : Word) (i : Instr) (rest : List Input),
    s.inputs = .host (.writeReg 0 w) :: rest → decode (.host16 w) = .ok i →
    step s = exec i { s with inputs := rest }) ∧
  (∀ (s : State) (b : Byte) (i : Instr) (rest : List Input),
    s.inputs = .ctrl8 b :: rest → decode (.ctrl8 b) = .ok i →
    step s = exec i { s with inputs := rest }) ∧
  (∀ s : State, s.inputs = [] → step s = .next s) ∧
  ∀ (s : State) (nbits w : Nat) (i : Instr), decodeTableWord nbits w = some i →
    step (s.withFetchWord nbits w) = exec i s

/-- What power-on leaves. The register values, `sp` and the empty trace are R35's. What stands for what R35 leaves
unspecified is the model's choice: a cell of FB or BM reads as a value of Config that nothing constrains (assumption
4), the pins are the opaque `Config.pinResetLevel` (assumption 5), and the strap the opaque `Config.transport`
(assumption 6). -/
def Obligations.PowerOnValues : Prop :=
  State.reset.sp = 0 ∧ statusWord State.reset = 0x0000 ∧ State.reset.ds = .uninit ∧
  State.reset.ret = false ∧ State.reset.fault = .none ∧ State.reset.fblen = 0 ∧ State.reset.bmw = 0 ∧
  State.reset.bmh = 0 ∧ State.reset.transport = Config.transport ∧ State.reset.trace = [] ∧
  (∀ a, fbByte State.reset.fb a = Config.fbPowerOn a) ∧ (∀ n, bmCell State.reset.bm n = Config.bmPowerOn n) ∧
  ∀ p : Pin, pinLevel State.reset p = Config.pinResetLevel p

/-- The invariant holds at power-on, as do the two invariants of the trace. -/
def Obligations.PowerOnMeetsTheInvariants : Prop :=
  State.reset.Inv ∧ State.reset.TraceFits ∧ settled State.reset.trace = true

/-- The machine's invariant, from every state that meets it: `DS = HALT` exactly when a fault is recorded
(R24), `RET = 1` after a fault (R184), `sp = 0` between operations (R21), FB and BM in canonical form, and
`BusFail` only at the end of the trace and exactly when the fault is TRANSPORT (R115). -/
def Obligations.StepKeepsTheInvariant : Prop :=
  ∀ s t : State, s.Inv → step s = .next t → t.Inv

/-- On SPI no I2C write is ever emitted, on I2C no SPI write, and then only to registers 0x00 and 0x40
(30_encoding.md R85); the strap never changes (R27). -/
def Obligations.StepKeepsTheTransportsOwnEvents : Prop :=
  ∀ s t : State, s.TraceFits → step s = .next t → t.TraceFits ∧ t.transport = s.transport

/-- R215: in the trace every level of the reset line is followed by a wait of 100 ms before any other event, a
command byte among them; every step keeps that. -/
def Obligations.StepKeepsTheSettleTimes : Prop :=
  ∀ s t : State, settled s.trace = true → step s = .next t → settled t.trace = true

/-- R32: the trace is only ever appended to; and by R218 one step appends at most the larger of 1048 and
`6 + N_INIT` events. -/
def Obligations.StepOnlyAppendsToTheTrace : Prop :=
  ∀ s t : State, step s = .next t → ∃ events : List Event,
    t.trace = s.trace ++ events ∧ events.length ≤ max 1048 (6 + Config.initSeq.length)

/-- R31: no step changes CS or BL; RST changes only by RESET or INIT; on I2C no step changes DC. -/
def Obligations.StepDrivesOnlyItsOwnPins : Prop :=
  ∀ s t : State, step s = .next t →
    t.pinCs = s.pinCs ∧ t.pinBl = s.pinBl ∧
    (t.pinRst ≠ s.pinRst → ∃ rest, s.inputs = .host (.writeReg 0 0x0300) :: rest ∨
      s.inputs = .host (.writeReg 0 0x0400) :: rest) ∧
    (s.transport = .i2c → t.pinDc = s.pinDc)

/-- R33: every way the lifecycle moves. Only a write of INIT's word enters READY, only a write of RESET's word
goes from READY to UNINIT, HALT is entered only with a fault recorded and never left; and the rows of the
table: INIT that ends OK gives READY and one that returns FAIL gives UNINIT; RESET that ends OK gives UNINIT;
CLEAR, SHOW, CMD, DATA and PACK that end OK keep the state they found; host accesses keep it too; and any fault
gives HALT. -/
def Obligations.LifecycleMovesOnlyAsItsTableSays : Prop :=
  (∀ s t : State, step s = .next t → s.ds = .uninit → t.ds ≠ .uninit →
    (t.ds = .ready ∧ ∃ rest, s.inputs = .host (.writeReg 0 0x0400) :: rest) ∨
    (t.ds = .halt ∧ t.fault ≠ .none)) ∧
  (∀ s t : State, step s = .next t → s.ds = .ready → t.ds ≠ .ready →
    (t.ds = .uninit ∧ ∃ rest, s.inputs = .host (.writeReg 0 0x0300) :: rest) ∨
    (t.ds = .halt ∧ t.fault ≠ .none)) ∧
  (∀ s t : State, step s = .next t → s.ds = .halt → t.ds = .halt) ∧
  (∀ s t : State, s.ds = .uninit → exec .init s = .next t → t.ds ≠ .halt →
    t.ds = if t.ret = true then .uninit else .ready) ∧
  (∀ s t : State, s.ds ≠ .halt → exec .reset s = .next t → t.ds = .uninit) ∧
  (∀ (i : Instr) (s t : State), i ∈ [.clear, .showFrame, .pack] ∨ (∃ b, i = .cmd b ∨ i = .data b) →
    exec i s = .next t → t.ds ≠ .halt → t.ds = s.ds) ∧
  (∀ (m : HostMove) (s t : State), (∀ w, m ≠ .writeReg 0 w) → hostMove m s = .next t → t.ds = s.ds) ∧
  ∀ s t : State, step s = .next t → s.fault = .none → t.fault ≠ .none → t.ds = .halt

/-- R220, R185: a run that ends final was final all along: no step of it recorded a fault, because a fault is
never cleared. -/
def Obligations.ASafeRunIsSafeAtEveryStep : Prop :=
  ∀ (s : State) (n m : Nat), s.Inv → m ≤ n → SafeRun s n → SafeRun s m

/-! ### Faults and the operation frame -/

/-- R184: what a raise does, that no later part of the operation runs after it, and that the frame leaves
the state the raise reached. -/
def Obligations.FaultEntry : Prop :=
  ∀ (code : FaultCode) (s : State) (f : State → Run),
    raise code s = { s with fault := code, ds := .halt, ret := true, sp := 0 } ∧
    (Run.ended (raise code s)).andThen f = .ended (raise code s) ∧
    (Run.ended (raise code s)).close = raise code s

/-- R185: while halted a write to OP of any word only sets RET; no step changes the lifecycle, the fault, the
trace or a pin, whatever the input; and the host's reads and its writes of FBLEN, BMW, BMH, FB and BM do what
they do in any state. A halted state (of the invariant) is not a final one. -/
def Obligations.HaltAbsorbs : Prop :=
  (∀ (w : Word) (s : State), s.ds = .halt → hostMove (.writeReg 0 w) s = .next { s with ret := true }) ∧
  (∀ s t : State, s.ds = .halt → step s = .next t →
    t.ds = .halt ∧ t.fault = s.fault ∧ t.trace = s.trace ∧ ∀ p, pinLevel t p = pinLevel s p) ∧
  (∀ (s : State) (v : Word), s.ds = .halt →
    hostMove (.writeReg 2 v) s = .next { s with fblen := v } ∧
    hostMove (.writeReg 3 v) s = .next { s with bmw := v } ∧
    hostMove (.writeReg 4 v) s = .next { s with bmh := v }) ∧
  (∀ (s : State) (n : Nat), s.ds = .halt →
    hostMove (.readReg n) s = .next { s with replies := s.replies ++ [.reg (readReg s n)] }) ∧
  (∀ (s : State) (a : Nat) (v : Byte), s.ds = .halt → a < 1024 →
    hostMove (.readFB a) s = .next { s with replies := s.replies ++ [.byte (fbByte s.fb a)] } ∧
    hostMove (.writeFB a v) s = .next { s with fb := Memory.write s.fb a v }) ∧
  (∀ (s : State) (n : Nat) (p : Pixel), s.ds = .halt → n < 8192 →
    hostMove (.readCell n) s = .next { s with replies := s.replies ++ [.pixel (bmCell s.bm n)] } ∧
    hostMove (.writeCell n p) s = .next { s with bm := Memory.write s.bm n p }) ∧
  ∀ s : State, s.Inv → s.ds = .halt → s.final = false

/-- R182, R187: CMD, DATA, CLEAR and SHOW in UNINIT and INIT in READY raise SEQ with no other effect, whatever
FBLEN is; every operation is refused in HALT; and an operation in a state the table permits never takes SEQ. -/
def Obligations.OperationsOutOfOrderFault : Prop :=
  (∀ (i : Instr) (s : State), (i ∈ [.clear, .showFrame] ∨ ∃ b, i = .cmd b ∨ i = .data b) → s.ds = .uninit →
    exec i s = .next { s with fault := .seq, ds := .halt, ret := true, sp := 0 }) ∧
  (∀ s : State, s.ds = .ready →
    exec .init s = .next { s with fault := .seq, ds := .halt, ret := true, sp := 0 }) ∧
  (∀ (i : Instr) (s : State),
    (i ∈ [.reset, .init, .clear, .showFrame, .pack] ∨ ∃ b, i = .cmd b ∨ i = .data b) → s.ds = .halt →
    exec i s = .next { s with ret := true }) ∧
  ∀ (i : Instr) (s t : State), s.fault = .none →
    (s.ds = .ready ∧ (i ∈ [.reset, .clear, .showFrame, .pack] ∨ ∃ b, i = .cmd b ∨ i = .data b)) ∨
      (s.ds = .uninit ∧ i ∈ [.reset, .init, .pack]) →
    exec i s = .next t → t.fault ≠ .seq

/-- R186: what a write to OP does, step by step: the halt check, the decoding, and then the operation. A legal
operation in a state that permits it runs from `sp = 0`; one that reaches its end leaves `RET = 0` and
`sp = 0`; one that has ended early leaves what its end left. -/
def Obligations.OperationFrameOrder : Prop :=
  (∀ (w : Word) (s : State), s.ds = .halt → hostMove (.writeReg 0 w) s = .next { s with ret := true }) ∧
  (∀ (w : Word) (e : DecodeError) (s : State), s.ds ≠ .halt → decode (.host16 w) = .error e →
    hostMove (.writeReg 0 w) s = .next (raise .illegalOp s)) ∧
  (∀ (w : Word) (i : Instr) (s : State), decode (.host16 w) = .ok i →
    hostMove (.writeReg 0 w) s = exec i s) ∧
  ∀ (permitted : Lifecycle → Bool) (body : State → Run) (s : State), s.ds ≠ .halt →
    (permitted s.ds = false → operation permitted body s = raise .seq s) ∧
    (permitted s.ds = true →
      (∀ t, body { s with sp := 0 } = .running t →
        operation permitted body s = { t with ret := false, sp := 0 }) ∧
      ∀ t, body { s with sp := 0 } = .ended t → operation permitted body s = t)

/-! ### The transport -/

/-- R110 to R113: the four primitives, when the oracle answers ok. -/
def Obligations.TransportPrimitivesSendOneByte : Prop :=
  ∀ (b : Byte) (s : State), s.transferOk 0 = true →
    (s.transport = .spi →
      sendCommand b s = .running { s with pinDc := .low, trace := s.trace ++ [.spiWr .low b], sp := s.sp + 1,
                                          busOracle := s.busOracle.after 1 } ∧
      sendData b s = .running { s with pinDc := .high, trace := s.trace ++ [.spiWr .high b], sp := s.sp + 1,
                                       busOracle := s.busOracle.after 1 }) ∧
    (s.transport = .i2c →
      sendCommand b s = .running { s with trace := s.trace ++ [.i2cWr 0x00 b], sp := s.sp + 1,
                                          busOracle := s.busOracle.after 1 } ∧
      sendData b s = .running { s with trace := s.trace ++ [.i2cWr 0x40 b], sp := s.sp + 1,
                                       busOracle := s.busOracle.after 1 })

/-- R115: a transfer the oracle fails appends BusFail and takes the fault; one it passes appends its event;
the DC level the primitive gave stays; and the oracle may fail any transfer and may pass any number of them. -/
def Obligations.FailedTransferFaults : Prop :=
  (∀ (e : Event) (s : State), s.transferOk 0 = false →
    transfer e s = .ended { s with trace := s.trace ++ [.busFail], sp := 0, fault := .transport, ds := .halt,
                                   ret := true, busOracle := s.busOracle.after 1 }) ∧
  (∀ (e : Event) (s : State), s.transferOk 0 = true →
    transfer e s = .running { s with trace := s.trace ++ [e], sp := s.sp + 1,
                                     busOracle := s.busOracle.after 1 }) ∧
  (∀ (b : Byte) (s : State), s.transferOk 0 = false →
    (∃ t, sendCommand b s = .ended t ∧ t.pinDc = dcDriven .low s.transport s.pinDc) ∧
    ∃ t, sendData b s = .ended t ∧ t.pinDc = dcDriven .high s.transport s.pinDc) ∧
  ∀ (s : State) (n : Nat), (∃ o, TransferFailsAt { s with busOracle := o } n) ∧
    ∃ o, TransfersOk { s with busOracle := o } n

/-- R116: CMD. Its encoding, its completion with the byte sent unchanged as a command and RET cleared, its
refusal while halted, SEQ in UNINIT, and TRANSPORT when the transfer fails. -/
def Obligations.CmdSendsOneCommandByte : Prop :=
  (∀ b : Byte, decode (.host16 (0x01#8 ++ b)) = .ok (.cmd b)) ∧
  (∀ (b : Byte) (s : State), s.ds = .ready → s.transferOk 0 = true →
    exec (.cmd b) s = .next { s with
      pinDc := dcDriven .low s.transport s.pinDc
      trace := s.trace ++ [commandEvent s.transport b]
      ret := false
      sp := 0
      busOracle := s.busOracle.after 1 }) ∧
  (∀ (b : Byte) (s : State), s.ds = .ready → s.transferOk 0 = false →
    exec (.cmd b) s = .next { s with
      pinDc := dcDriven .low s.transport s.pinDc
      trace := s.trace ++ [.busFail]
      ret := true
      sp := 0
      ds := .halt
      fault := .transport
      busOracle := s.busOracle.after 1 }) ∧
  (∀ (b : Byte) (s : State), s.ds = .uninit →
    exec (.cmd b) s = .next { s with fault := .seq, ds := .halt, ret := true, sp := 0 }) ∧
  ∀ (b : Byte) (s : State), s.ds = .halt → exec (.cmd b) s = .next { s with ret := true }

/-- R117: DATA, as R116 but with the byte sent as data, not inverted. -/
def Obligations.DataSendsOneDataByte : Prop :=
  (∀ b : Byte, decode (.host16 (0x02#8 ++ b)) = .ok (.data b)) ∧
  (∀ (b : Byte) (s : State), s.ds = .ready → s.transferOk 0 = true →
    exec (.data b) s = .next { s with
      pinDc := dcDriven .high s.transport s.pinDc
      trace := s.trace ++ [dataEvent s.transport b]
      ret := false
      sp := 0
      busOracle := s.busOracle.after 1 }) ∧
  (∀ (b : Byte) (s : State), s.ds = .ready → s.transferOk 0 = false →
    exec (.data b) s = .next { s with
      pinDc := dcDriven .high s.transport s.pinDc
      trace := s.trace ++ [.busFail]
      ret := true
      sp := 0
      ds := .halt
      fault := .transport
      busOracle := s.busOracle.after 1 }) ∧
  (∀ (b : Byte) (s : State), s.ds = .uninit →
    exec (.data b) s = .next { s with fault := .seq, ds := .halt, ret := true, sp := 0 }) ∧
  ∀ (b : Byte) (s : State), s.ds = .halt → exec (.data b) s = .next { s with ret := true }

/-- SETPAGE, SETCOLLO and SETCOLHI (R86), each run by itself as the one `SendCommand` that `ShowPages()` makes
of it (R134). That a byte of the sequencer's own is a step, and what it does to `sp` and in HALT, is the
model's choice (assumption 8). -/
def Obligations.ControllerByteIsSentAsACommand : Prop :=
  ∀ (i : Instr) (b : Byte) (s : State),
    ((∃ page, page < 8 ∧ i = .setPage page ∧ b = 0xB0 + BitVec.ofNat 8 page) ∨
      (i = .setColLo ∧ b = 0x02) ∨ (i = .setColHi ∧ b = 0x10)) →
    (s.ds ≠ .halt → s.transferOk 0 = true →
      exec i s = .next { s with
        pinDc := dcDriven .low s.transport s.pinDc
        trace := s.trace ++ [commandEvent s.transport b]
        sp := 0
        busOracle := s.busOracle.after 1 }) ∧
    (s.ds ≠ .halt → s.transferOk 0 = false →
      exec i s = .next { s with
        pinDc := dcDriven .low s.transport s.pinDc
        trace := s.trace ++ [.busFail]
        ret := true
        sp := 0
        ds := .halt
        fault := .transport
        busOracle := s.busOracle.after 1 }) ∧
    (s.ds = .halt → exec i s = .next s)

/-! ### The driver -/

/-- R130: the reset pulse: high, low, high, each followed by 100 ms; six events; RST is left high. -/
def Obligations.ResetPulseEvents : Prop :=
  ∀ s : State, hwReset s = { s with
    pinRst := .high
    trace := s.trace ++
      [.pinRst .high, .wait 100, .pinRst .low, .wait 100, .pinRst .high, .wait 100]
    sp := s.sp + 6 }

/-- R131: RESET. It completes in UNINIT and READY, with the six events of the pulse, RST high, UNINIT and
RET = 0, and changes nothing else (R211 (c)); while halted it is refused. -/
def Obligations.ResetPulsesAndLeavesUninit : Prop :=
  decode (.host16 0x0300) = .ok .reset ∧
  (∀ s : State, s.ds ≠ .halt → exec .reset s = .next { s with
    pinRst := .high
    trace := s.trace ++ resetPulse
    ds := .uninit
    ret := false
    sp := 0 }) ∧
  ∀ s : State, s.ds = .halt → exec .reset s = .next { s with ret := true }

/-- R132: INIT, for any INIT_SEQ; INIT itself is this operation at the parameter `Config.initSeq`. In UNINIT with
`init_ok` and no transfer failing: the six events of the pulse, then every byte of the sequence in order as a
command, READY and RET = 0. With `init_ok` false: the FAIL return, with no event. With the transfer at position `n`
failing: the pulse, the commands before it, BusFail, and HALT, not READY. In READY: SEQ, and nothing drawn. FB, BM,
FBLEN, BMW and BMH are untouched throughout. -/
def Obligations.InitPulsesAndSendsItsSequence : Prop :=
  decode (.host16 0x0400) = .ok .init ∧
  (∀ s : State, exec .init s = .next (operation whenUninit (initDisplay Config.initSeq) s)) ∧
  (∀ s : State, s.ds = .uninit → s.initOk = true → TransfersOk s Config.initSeq.length →
    exec .init s = .next { s with
      pinRst := .high
      pinDc := if Config.initSeq = [] then s.pinDc else dcDriven .low s.transport s.pinDc
      trace := s.trace ++ resetPulse ++ Config.initSeq.map (commandEvent s.transport)
      ds := .ready
      ret := false
      sp := 0
      initOracle := s.initOracle.after 1
      busOracle := s.busOracle.after Config.initSeq.length }) ∧
  ∀ (seq : List Byte) (s : State),
    (s.ds = .uninit → s.initOk = true → TransfersOk s seq.length →
      operation whenUninit (initDisplay seq) s = { s with
        pinRst := .high
        pinDc := if seq = [] then s.pinDc else dcDriven .low s.transport s.pinDc
        trace := s.trace ++ resetPulse ++ seq.map (commandEvent s.transport)
        ds := .ready
        ret := false
        sp := 0
        initOracle := s.initOracle.after 1
        busOracle := s.busOracle.after seq.length }) ∧
    (s.ds = .uninit → s.initOk = false →
      operation whenUninit (initDisplay seq) s =
        { s with ret := true, sp := 0, initOracle := s.initOracle.after 1 }) ∧
    (∀ n, s.ds = .uninit → s.initOk = true → n < seq.length → TransferFailsAt s n →
      operation whenUninit (initDisplay seq) s = { s with
        pinRst := .high
        pinDc := dcDriven .low s.transport s.pinDc
        trace := s.trace ++ resetPulse ++ (seq.take n).map (commandEvent s.transport) ++ [.busFail]
        ds := .halt
        fault := .transport
        ret := true
        sp := 0
        initOracle := s.initOracle.after 1
        busOracle := s.busOracle.after (n + 1) }) ∧
    (s.ds = .ready → operation whenUninit (initDisplay seq) s =
      { s with fault := .seq, ds := .halt, ret := true, sp := 0 })

/-- R16, R183: an operation issued with no fault recorded ends in exactly one outcome: OK (RET = 0, no fault), FAIL
(RET = 1, no fault; only INIT, in UNINIT, with `init_ok` false) or FAULT (RET = 1, halted, not final). The FAIL
return emits no event, leaves FAULT and DS alone, and another INIT may follow. -/
def Obligations.EveryOperationEndsInOneOutcome : Prop :=
  (∀ s : State, s.ds = .uninit → s.initOk = false →
    exec .init s = .next { s with ret := true, sp := 0, initOracle := s.initOracle.after 1 }) ∧
  ∀ (i : Instr) (s t : State),
    (i ∈ [.reset, .init, .clear, .showFrame, .pack] ∨ ∃ b, i = .cmd b ∨ i = .data b) →
    s.ds ≠ .halt → s.fault = .none → exec i s = .next t →
    (t.ret = false ∧ t.fault = .none ∧ t.ds ≠ .halt) ∨
    (t.ret = true ∧ t.fault = .none ∧ t.ds = .uninit ∧ i = .init ∧ s.ds = .uninit ∧ s.initOk = false) ∨
    (t.ret = true ∧ t.fault ≠ .none ∧ t.ds = .halt ∧ t.final = false)

/-- R135, with R134's `ShowPages()` and what R139 says a failure leaves: SHOW. In READY with FBLEN = 1024 and no
transfer failing: for each page in order the commands `0xB0 + page`, `0x02`, `0x10` and then its 128 bytes inverted;
RET = 0, and FB, FBLEN and everything else as before. FBLEN other than 1024, shorter or longer, raises LENGTH before
the first event, so that nothing else changes; in UNINIT SEQ comes first, whatever FBLEN is; and a failed transfer at
position `n` leaves the first `n` events, BusFail, and the fault. -/
def Obligations.ShowSendsEveryPage : Prop :=
  decode (.host16 0x0600) = .ok .showFrame ∧
  (∀ s : State, s.ds = .ready → s.fblen = 1024 → TransfersOk s 1048 →
    exec .showFrame s = .next { s with
      pinDc := dcDriven .high s.transport s.pinDc
      trace := s.trace ++ frameEvents s.transport s.fb
      ret := false
      sp := 0
      busOracle := s.busOracle.after 1048 }) ∧
  (∀ s : State, s.ds = .ready → s.fblen ≠ 1024 →
    exec .showFrame s = .next { s with fault := .length, ds := .halt, ret := true, sp := 0 }) ∧
  (∀ s : State, s.ds = .uninit →
    exec .showFrame s = .next { s with fault := .seq, ds := .halt, ret := true, sp := 0 }) ∧
  (∀ (s : State) (n : Nat), s.ds = .ready → s.fblen = 1024 → n < 1048 → TransferFailsAt s n →
    exec .showFrame s = .next { s with
      pinDc := showDc s.transport n s.pinDc
      trace := s.trace ++ (frameEvents s.transport s.fb).take n ++ [.busFail]
      ds := .halt
      fault := .transport
      ret := true
      sp := 0
      busOracle := s.busOracle.after (n + 1) }) ∧
  ∀ (t : Transport) (fb : List Host.Cell) (b : Byte), (∀ a, a < 1024 → fbByte fb a = 0xFF) →
    dataEvent t b ∈ frameEvents t fb → b = 0x00

/-- R137 (which the spec derives from R134): `ShowPages()`, and so a completed SHOW and a completed CLEAR, appends
a frame of 1048 events, the event at position `n` the one of page `n div 131` at `n mod 131`, 24 of them commands and
1024 data; and `sp` has then advanced by 1048, before the operation's end returns it to 0. -/
def Obligations.FrameEventAtEachPosition : Prop :=
  ∀ s : State, TransfersOk s 1048 →
    (∃ (t : State) (events : List Event), showPages s = .running t ∧ t.trace = s.trace ++ events ∧
      t.sp = s.sp + 1048 ∧ IsFrame s.transport s.fb events) ∧
    (s.ds = .ready → s.fblen = 1024 → ∃ (t : State) (events : List Event),
      exec .showFrame s = .next t ∧ t.trace = s.trace ++ events ∧ t.sp = 0 ∧
      IsFrame s.transport s.fb events) ∧
    (s.ds = .ready → ∃ (t : State) (events : List Event),
      exec .clear s = .next t ∧ t.trace = s.trace ++ events ∧ t.sp = 0 ∧
      IsFrame s.transport t.fb events)

/-- R138 (which the spec derives from R134 and R137): with no transfer failing, the events SHOW appends depend on the
transport and the 1024 FB bytes alone, whatever else differs; and where two framebuffers differ in the one byte `a`,
the events differ exactly at position `131 * (a div 128) + 3 + a mod 128`. -/
def Obligations.FrameDiffersOnlyWhereTheBytesDo : Prop :=
  ∀ s s' : State, s.ds = .ready → s'.ds = .ready → s.fblen = 1024 → s'.fblen = 1024 →
    TransfersOk s 1048 → TransfersOk s' 1048 → s.transport = s'.transport →
    ∃ (t t' : State) (events events' : List Event),
      exec .showFrame s = .next t ∧ exec .showFrame s' = .next t' ∧
      t.trace = s.trace ++ events ∧ t'.trace = s'.trace ++ events' ∧
      events.length = 1048 ∧ events'.length = 1048 ∧
      ((∀ a, a < 1024 → fbByte s.fb a = fbByte s'.fb a) → events = events') ∧
      ∀ a, a < 1024 → fbByte s.fb a ≠ fbByte s'.fb a →
        (∀ c, c < 1024 → c ≠ a → fbByte s.fb c = fbByte s'.fb c) →
        ∀ n, n < 1048 → (events[n]? ≠ events'[n]? ↔ n = 131 * (a / 128) + 3 + a % 128)

/-- R136: CLEAR. In READY with no transfer failing: every FB byte becomes 0xFF, FBLEN becomes 1024, and the frame of
the blank buffer goes out, every data byte 0x00. A failed transfer at position `n` leaves FB already blank and FBLEN
1024. In UNINIT SEQ is raised before FB is touched. LENGTH cannot occur. -/
def Obligations.ClearBlanksAndSends : Prop :=
  decode (.host16 0x0500) = .ok .clear ∧
  (∀ s : State, s.ds = .ready → TransfersOk s 1048 →
    exec .clear s = .next { s with
      fb := blankFB
      fblen := 1024
      pinDc := dcDriven .high s.transport s.pinDc
      trace := s.trace ++ frameEvents s.transport blankFB
      ret := false
      sp := 0
      busOracle := s.busOracle.after 1048 }) ∧
  (∀ (s : State) (n : Nat), s.ds = .ready → n < 1048 → TransferFailsAt s n →
    exec .clear s = .next { s with
      fb := blankFB
      fblen := 1024
      pinDc := showDc s.transport n s.pinDc
      trace := s.trace ++ (frameEvents s.transport blankFB).take n ++ [.busFail]
      ds := .halt
      fault := .transport
      ret := true
      sp := 0
      busOracle := s.busOracle.after (n + 1) }) ∧
  (∀ s : State, s.ds = .uninit →
    exec .clear s = .next { s with fault := .seq, ds := .halt, ret := true, sp := 0 }) ∧
  (∀ a, a < 1024 → fbByte blankFB a = 0xFF) ∧
  (∀ (t : Transport) (b : Byte), dataEvent t b ∈ frameEvents t blankFB → b = 0x00) ∧
  ∀ s t : State, s.fault = .none → exec .clear s = .next t → t.fault ≠ .length

/-- V13 of 95_test_vectors.md, from R135: a second SHOW with the oracle passing repeats the same events, because
SHOW changes neither FB nor FBLEN. -/
def Obligations.ShowTwiceRepeatsTheFrame : Prop :=
  ∀ s t u : State, s.ds = .ready → s.fblen = 1024 → TransfersOk s 2096 →
    exec .showFrame s = .next t → exec .showFrame t = .next u →
    t.trace = s.trace ++ frameEvents s.transport s.fb ∧
    u.trace = s.trace ++ frameEvents s.transport s.fb ++ frameEvents s.transport s.fb ∧ u.ds = .ready

/-! ### The packer -/

/-- R161, R163: PACK of the native shape, in UNINIT or READY: FB is filled with 0xFF and ink at `(x, y)` clears
bit `y mod 8` of `FB[x + 128 * (y div 8)]`, no other bit; FBLEN becomes 1024 and RET 0; nothing else changes. -/
def Obligations.PackNativeClearsTheInkBits : Prop :=
  decode (.host16 0x0700) = .ok .pack ∧
  ∀ s : State, s.ds ≠ .halt → s.bmw = 128 → s.bmh = 64 → ∃ fb : List Host.Cell,
    exec .pack s = .next { s with fb := fb, fblen := 1024, ret := false, sp := 0 } ∧
    ∀ a k, a < 1024 → k < 8 → ((fbByte fb a).getLsbD k = false ↔
      ∃ x y, x < 128 ∧ y < 64 ∧ pix s x y = .ink ∧ a = x + 128 * (y / 8) ∧ k = y % 8)

/-- R162, R163: PACK of the rotated shape: ink at `(x, y)` clears bit `y mod 8`, the original `y`, of
`FB[y + 128 * ((63 - x) div 8)]`, no other bit; FBLEN becomes 1024 and RET 0; nothing else changes. -/
def Obligations.PackRotatedClearsTheInkBits : Prop :=
  ∀ s : State, s.ds ≠ .halt → s.bmw = 64 → s.bmh = 128 → ∃ fb : List Host.Cell,
    exec .pack s = .next { s with fb := fb, fblen := 1024, ret := false, sp := 0 } ∧
    ∀ a k, a < 1024 → k < 8 → ((fbByte fb a).getLsbD k = false ↔
      ∃ x y, x < 64 ∧ y < 128 ∧ pix s x y = .ink ∧ a = y + 128 * ((63 - x) / 8) ∧ k = y % 8)

/-- R164 (which the spec derives from R160, R161, R163): after a native PACK bit `k` of `FB[c + 128p]` is
`Pix(c, 8p + k)`, so an all-background bitmap gives 0xFF everywhere and an all-ink one 0x00. -/
def Obligations.PackNativeIsABijection : Prop :=
  ∀ s t : State, s.ds ≠ .halt → s.bmw = 128 → s.bmh = 64 → exec .pack s = .next t →
    (∀ c p k, c < 128 → p < 8 → k < 8 →
      (fbByte t.fb (c + 128 * p)).getLsbD k = (pix s c (8 * p + k)).bit) ∧
    ((∀ x y, x < 128 → y < 64 → pix s x y = .background) → ∀ a, a < 1024 → fbByte t.fb a = 0xFF) ∧
    ((∀ x y, x < 128 → y < 64 → pix s x y = .ink) → ∀ a, a < 1024 → fbByte t.fb a = 0x00)

/-- R165 (which the spec derives from R160, R162, R163): after a rotated PACK the byte `FB[c + 128p]` is 0xFF,
or 0xFF with bit `c mod 8` cleared, and that bit is cleared exactly when one of the eight pixels `Pix(x, c)`
with `56 - 8p <= x <= 63 - 8p` is ink. -/
def Obligations.PackRotatedClosedForm : Prop :=
  ∀ s t : State, s.ds ≠ .halt → s.bmw = 64 → s.bmh = 128 → exec .pack s = .next t →
    ∀ c p, c < 128 → p < 8 →
      ((∃ x, 56 - 8 * p ≤ x ∧ x ≤ 63 - 8 * p ∧ pix s x c = .ink) →
        fbByte t.fb (c + 128 * p) = 0xFF &&& ~~~(1#8 <<< (c % 8))) ∧
      ((∀ x, 56 - 8 * p ≤ x → x ≤ 63 - 8 * p → pix s x c = .background) →
        fbByte t.fb (c + 128 * p) = 0xFF)

/-- R166: PACK of any other shape, in UNINIT or READY, raises SHAPE before the fill: FB, FBLEN and everything
but STATUS and `sp` are as before; among the shapes are the reset shape and 256 by 32. -/
def Obligations.PackOfAnotherShapeFaults : Prop :=
  (∀ s : State, s.ds ≠ .halt → ¬(s.bmw = 128 ∧ s.bmh = 64) → ¬(s.bmw = 64 ∧ s.bmh = 128) →
    exec .pack s = .next { s with fault := .shape, ds := .halt, ret := true, sp := 0 }) ∧
  ∀ s : State, s.ds ≠ .halt →
    (s.bmw, s.bmh) ∈ [((0 : Word), (0 : Word)), (128, 128), (64, 64), (127, 64), (256, 32)] →
    exec .pack s = .next { s with fault := .shape, ds := .halt, ret := true, sp := 0 }

/-- R167, and R163's independence: the packed buffer depends on BM, BMW and BMH alone. Two states that agree on
them, whatever else they hold, get the same FB, exactly the 1024 bytes, and FBLEN 1024; PACK emits no event, drives
no pin and needs no initialized display; and in UNINIT every operation but INIT, RESET and PACK takes SEQ. -/
def Obligations.PackDependsOnTheBitmapAlone : Prop :=
  (∀ s s' t t' : State, s.ds ≠ .halt → s'.ds ≠ .halt → s.bm = s'.bm → s.bmw = s'.bmw → s.bmh = s'.bmh →
    exec .pack s = .next t → exec .pack s' = .next t' → t.fault = .none → t'.fault = .none →
    s.fault = .none → s'.fault = .none →
    t.fb = t'.fb ∧ (∀ a, (Memory.read t.fb a).isSome = decide (a < 1024)) ∧ t.fblen = 1024 ∧
    t.trace = s.trace ∧ (∀ p, pinLevel t p = pinLevel s p) ∧ t.ds = s.ds) ∧
  ∀ (i : Instr) (s : State), s.ds = .uninit → (i ∈ [.clear, .showFrame] ∨ ∃ b, i = .cmd b ∨ i = .data b) →
    exec i s = .next { s with fault := .seq, ds := .halt, ret := true, sp := 0 }

/-- R169 (which the spec derives from R160): visiting the pixels in any order, and a pixel more than once, gives
the same buffer as the loops of R160. -/
def Obligations.PackScanOrderDoesNotMatter : Prop :=
  ∀ (p : Nat → Nat → Pixel) (visits : List (Nat × Nat)),
    ((∀ v, v ∈ visits ↔ v ∈ grid 128 64) → paint p nativeIndex visits blankFB = packNative p) ∧
    ((∀ v, v ∈ visits ↔ v ∈ grid 64 128) → paint p rotatedIndex visits blankFB = packRotated p)

/-- The frame path DISPLAY of R90: a native PACK and then SHOW puts bit `k` of the data byte of column `c` of
page `p`, at position `131 * p + 3 + c` (R137), to 1 exactly when `Pix(c, 8p + k)` is ink (R164, R87). -/
def Obligations.PackThenShowLightsTheInk : Prop :=
  ∀ s t u : State, s.ds = .ready → s.bmw = 128 → s.bmh = 64 → TransfersOk s 1048 →
    exec .pack s = .next t → exec .showFrame t = .next u →
    u.fault = s.fault ∧ u.ret = false ∧ ∃ events : List Event,
      u.trace = s.trace ++ events ∧ events.length = 1048 ∧
      ∀ c p, c < 128 → p < 8 → ∃ b : Byte, events[131 * p + 3 + c]? = some (dataEvent s.transport b) ∧
        ∀ k, k < 8 → (b.getLsbD k = true ↔ pix s c (8 * p + k) = .ink)

/-- S6 of 95_test_vectors.md (90_conflicts.md C10): packing an all-ink bitmap and then clearing leaves FB as a
clear alone does, all 0xFF, although the pack made it all 0x00. -/
def Obligations.PackThenClearIsBlank : Prop :=
  ∀ s t u v : State, s.ds = .ready → s.bmw = 128 → s.bmh = 64 → TransfersOk s 1048 →
    (∀ x y, x < 128 → y < 64 → pix s x y = .ink) →
    exec .pack s = .next t → exec .clear t = .next u → exec .clear s = .next v →
    (∀ a, a < 1024 → fbByte t.fb a = 0x00) ∧ u.fb = v.fb ∧ u.fblen = 1024 ∧
    ∀ a, a < 1024 → fbByte u.fb a = 0xFF

/-! ### Frames -/

/-- What the instructions that store nothing leave unchanged, in every outcome: CMD, DATA, RESET, INIT, SHOW,
SETPAGE, SETCOLLO, SETCOLHI. Every FB byte and BM cell, FBLEN, BMW, BMH, CFG, CS and BL (R31), and the model's
own inputs and replies; RST except by RESET and INIT; DC on I2C, and by RESET on either transport; the oracle's
`init_ok` answers except by INIT; DS except by RESET, INIT and a fault, FAULT except by a fault; and the events
before. The rules are those of R116, R117, R131, R132 and R135, and for the last three R86, R134 and R110: that SETPAGE,
SETCOLLO and SETCOLHI run alone, and what they then do to `sp`, RET and in HALT, is the model's choice
(assumption 8). -/
def Obligations.FrameOfTheInstructionsThatStoreNothing : Prop :=
  ∀ (i : Instr) (s t : State), i ≠ .clear → i ≠ .pack → exec i s = .next t →
    (∀ a, fbByte t.fb a = fbByte s.fb a) ∧ (∀ n, bmCell t.bm n = bmCell s.bm n) ∧
    t.fblen = s.fblen ∧ t.bmw = s.bmw ∧ t.bmh = s.bmh ∧ t.transport = s.transport ∧
    t.pinCs = s.pinCs ∧ t.pinBl = s.pinBl ∧ t.inputs = s.inputs ∧ t.replies = s.replies ∧
    (i ≠ .reset → i ≠ .init → t.pinRst = s.pinRst) ∧
    (s.transport = .i2c ∨ i = .reset → t.pinDc = s.pinDc) ∧
    (i ≠ .init → t.initOracle = s.initOracle) ∧
    (i = .reset → t.busOracle = s.busOracle) ∧
    (i ≠ .reset → i ≠ .init → t.ds = s.ds ∨ t.ds = .halt) ∧
    (t.fault = s.fault ∨ t.ds = .halt) ∧
    ∃ events, t.trace = s.trace ++ events

/-- What CLEAR and PACK leave unchanged. BM, BMW, BMH, CFG, RST, CS, BL, the model's own inputs and replies and
the `init_ok` answers in every outcome; DC, the trace and the transfer answers by PACK; every FB byte and FBLEN
where the operation is refused or faults before its fill (SEQ, SHAPE); and where it does fill, the bytes stored
are the 1024 of FB, so every other address reads as before (from a framebuffer in canonical form), and FBLEN
becomes 1024. -/
def Obligations.FrameOfClearAndPack : Prop :=
  ∀ (i : Instr) (s t : State), i = .clear ∨ i = .pack → exec i s = .next t →
    (∀ n, bmCell t.bm n = bmCell s.bm n) ∧ t.bmw = s.bmw ∧ t.bmh = s.bmh ∧ t.transport = s.transport ∧
    t.pinRst = s.pinRst ∧ t.pinCs = s.pinCs ∧ t.pinBl = s.pinBl ∧ t.inputs = s.inputs ∧
    t.replies = s.replies ∧ t.initOracle = s.initOracle ∧
    (i = .pack → t.pinDc = s.pinDc ∧ t.trace = s.trace ∧ t.busOracle = s.busOracle) ∧
    ((s.ds = .halt ∨ t.fault = .seq ∨ t.fault = .shape) → s.fault = .none ∨ s.ds = .halt →
      (∀ a, fbByte t.fb a = fbByte s.fb a) ∧ t.fblen = s.fblen) ∧
    (s.ds ≠ .halt → t.fault ≠ .seq → t.fault ≠ .shape → Memory.wf 1024 s.fb = true →
      t.fblen = 1024 ∧ ∀ a, 1024 ≤ a → fbByte t.fb a = fbByte s.fb a)

/-! ### The host's access -/

/-- R23: the control registers as the host sees them. Reads: OP and the numbers above 5 give 0, STATUS is
`DS + 4 * RET + 16 * FAULT` with the codes of R24 and R180, CFG is 0 on SPI and 1 on I2C (R27), the others are what
they hold; a read changes nothing but the host's replies. Writes: FBLEN, BMW and BMH take any value and nothing else
changes; STATUS, CFG and the numbers above 5 ignore them; and a write to OP starts the operation its word encodes. -/
def Obligations.HostAccessToTheRegisters : Prop :=
  (∀ (s : State) (n : Nat),
    hostMove (.readReg n) s = .next { s with replies := s.replies ++ [.reg (readReg s n)] }) ∧
  (∀ s : State,
    readReg s 0 = 0 ∧ readReg s 2 = s.fblen ∧ readReg s 3 = s.bmw ∧ readReg s 4 = s.bmh ∧
    (readReg s 1).toNat =
      (match s.ds with
        | .uninit => 0
        | .ready => 1
        | .halt => 2) + (if s.ret = true then 4 else 0) +
      16 * (match s.fault with
        | .none => 0
        | .illegalOp => 1
        | .seq => 2
        | .length => 3
        | .shape => 4
        | .transport => 5) ∧
    readReg s 5 = (if s.transport = .spi then 0 else 1) ∧
    ∀ n, 6 ≤ n → readReg s n = 0) ∧
  (∀ (s : State) (v : Word),
    hostMove (.writeReg 2 v) s = .next { s with fblen := v } ∧
    hostMove (.writeReg 3 v) s = .next { s with bmw := v } ∧
    hostMove (.writeReg 4 v) s = .next { s with bmh := v } ∧
    hostMove (.writeReg 1 v) s = .next s ∧ hostMove (.writeReg 5 v) s = .next s ∧
    ∀ n, 6 ≤ n → hostMove (.writeReg n v) s = .next s) ∧
  ∀ (s : State) (w : Word) (i : Instr), decode (.host16 w) = .ok i → hostMove (.writeReg 0 w) s = exec i s

/-- R29: the host reads and writes every FB byte: a byte written reads back, every other byte as before, and FB
stays in canonical form. An access outside FB has no meaning (R55): the model faults (assumption 10). -/
def Obligations.HostAccessToTheFramebuffer : Prop :=
  ∀ (s : State) (a : Nat) (v : Byte),
    (a < 1024 →
      hostMove (.readFB a) s = .next { s with replies := s.replies ++ [.byte (fbByte s.fb a)] } ∧
      ∃ fb, hostMove (.writeFB a v) s = .next { s with fb := fb } ∧ fbByte fb a = v ∧
        (∀ c, c ≠ a → fbByte fb c = fbByte s.fb c) ∧
        (Memory.wf 1024 s.fb = true → Memory.wf 1024 fb = true)) ∧
    (1024 ≤ a → hostMove (.readFB a) s = .fault (.noSuchByte a) ∧
      hostMove (.writeFB a v) s = .fault (.noSuchByte a))

/-- R30: the host reads and writes every pixel of the current shape, by `(x, y)` or by the linear number
`x + y * BMW`, and every cell of the 8192 by its linear number, in the current shape or not and in every lifecycle
state; a pixel written reads back either way, every other cell as before, and BM stays in canonical form. An access
outside has no meaning (R55): the model faults (assumption 10). That cells are reached by number as well is the
model's reading of R30 and R50 (assumption 13). -/
def Obligations.HostAccessToTheBitmap : Prop :=
  ∀ (s : State) (x y : Nat) (p : Pixel),
    (x < s.bmw.toNat → y < s.bmh.toNat → x + y * s.bmw.toNat < 8192 →
      hostMove (.readPixel x y) s = .next { s with replies := s.replies ++ [.pixel (pix s x y)] } ∧
      hostMove (.readCell (x + y * s.bmw.toNat)) s = hostMove (.readPixel x y) s ∧
      hostMove (.writeCell (x + y * s.bmw.toNat) p) s = hostMove (.writePixel x y p) s ∧
      ∃ bm, hostMove (.writePixel x y p) s = .next { s with bm := bm } ∧
        pix { s with bm := bm } x y = p ∧
        ∀ n, n ≠ x + y * s.bmw.toNat → bmCell bm n = bmCell s.bm n) ∧
    (∀ n, n < 8192 →
      hostMove (.readCell n) s = .next { s with replies := s.replies ++ [.pixel (bmCell s.bm n)] } ∧
      ∃ bm, hostMove (.writeCell n p) s = .next { s with bm := bm } ∧ bmCell bm n = p ∧
        (∀ c, c ≠ n → bmCell bm c = bmCell s.bm c) ∧
        (Memory.wf 8192 s.bm = true → Memory.wf 8192 bm = true)) ∧
    (s.bmw.toNat ≤ x ∨ s.bmh.toNat ≤ y ∨ 8192 ≤ x + y * s.bmw.toNat →
      hostMove (.readPixel x y) s = .fault (.noSuchPixel x y) ∧
      hostMove (.writePixel x y p) s = .fault (.noSuchPixel x y)) ∧
    ∀ n, 8192 ≤ n → hostMove (.readCell n) s = .fault (.noSuchCell n) ∧
      hostMove (.writeCell n p) s = .fault (.noSuchCell n)

/-- R20 to R22, R62: what an operation does to the block does not depend on what the host has been given or has
still to do: with other inputs and replies `exec` does the same and leaves those alone. The queues are the
model's own (assumption 2), and so is that SETPAGE, SETCOLLO and SETCOLHI run alone (assumption 8). -/
def Obligations.ExecIgnoresTheHostsQueues : Prop :=
  ∀ (i : Instr) (s t : State) (inputs : List Input) (replies : List Reply), exec i s = .next t →
    exec i { s with inputs := inputs, replies := replies } =
      .next { t with inputs := inputs, replies := replies }

/-- Every instruction terminates and none hangs: `exec` answers a next state for every instruction in every state,
with a bounded number of new events. For the seven operations that is R218's: CMD and DATA at most 1, RESET at most 6,
INIT at most `6 + N_INIT`, SHOW and CLEAR at most 1048, PACK none. For SETPAGE, SETCOLLO and SETCOLHI it is not: that
they run alone is the model's choice (assumption 8), and the bound of 1 is then R114's, one transfer a call. -/
def Obligations.EveryInstructionTerminates : Prop :=
  ∀ (i : Instr) (s : State), ∃ t, exec i s = .next t ∧ ∃ events : List Event,
    t.trace = s.trace ++ events ∧
    events.length ≤ (match i with
      | .cmd _ => 1
      | .data _ => 1
      | .reset => 6
      | .init => 6 + Config.initSeq.length
      | .clear => 1048
      | .showFrame => 1048
      | .pack => 0
      | .setPage _ => 1
      | .setColLo => 1
      | .setColHi => 1)
end

