-- ==== Sys2Proof/Laws/Decode.lean ====
section
/-! SUPPORT. The two fields of a host word (30_encoding.md R80): taking them out of a word that was put together
from them, putting them back, and what they are as numbers. -/

namespace Sys2Proof

theorem opcodeOf_toNat (w : Word) : (opcodeOf w).toNat = w.toNat / 256 := by
  have := w.isLt
  simp only [opcodeOf, BitVec.extractLsb'_toNat, Nat.shiftRight_eq_div_pow]
  omega

theorem imm8Of_toNat (w : Word) : (imm8Of w).toNat = w.toNat % 256 := by
  simp [imm8Of, BitVec.extractLsb'_toNat]

theorem append_toNat (opcode imm8 : Byte) : (opcode ++ imm8 : Word).toNat = opcode.toNat * 256 + imm8.toNat := by
  have h := Nat.two_pow_add_eq_or_of_lt (i := 8) imm8.isLt opcode.toNat
  rw [BitVec.toNat_append, Nat.shiftLeft_eq, Nat.mul_comm]
  omega

@[simp] theorem opcodeOf_append (opcode imm8 : Byte) : opcodeOf (opcode ++ imm8) = opcode := by
  apply BitVec.eq_of_toNat_eq
  have := imm8.isLt
  rw [opcodeOf_toNat, append_toNat]
  omega

@[simp] theorem imm8Of_append (opcode imm8 : Byte) : imm8Of (opcode ++ imm8) = imm8 := by
  apply BitVec.eq_of_toNat_eq
  have := imm8.isLt
  rw [imm8Of_toNat, append_toNat]
  omega

/-- A host word is its two fields. -/
theorem append_fields (w : Word) : opcodeOf w ++ imm8Of w = w := by
  apply BitVec.eq_of_toNat_eq
  rw [append_toNat, opcodeOf_toNat, imm8Of_toNat]
  omega

/-- An operation without an immediate decodes only from the word with `imm8 = 0`. -/
theorem withoutImmediate_eq_ok {w : Word} {i j : Instr} :
    withoutImmediate w i = .ok j ↔ imm8Of w = 0x00 ∧ i = j := by
  unfold withoutImmediate
  split <;> simp_all

/-- Everything the decoder can answer on a host word (R81, R83). -/
theorem decodeHost16_cases {w : Word} {i : Instr} (h : decodeHost16 w = .ok i) :
    (opcodeOf w = 1 ∧ i = .cmd (imm8Of w)) ∨ (opcodeOf w = 2 ∧ i = .data (imm8Of w)) ∨
    (imm8Of w = 0 ∧ ((opcodeOf w = 3 ∧ i = .reset) ∨ (opcodeOf w = 4 ∧ i = .init) ∨
      (opcodeOf w = 5 ∧ i = .clear) ∨ (opcodeOf w = 6 ∧ i = .showFrame) ∨
      (opcodeOf w = 7 ∧ i = .pack))) := by
  unfold decodeHost16 at h
  split at h
  all_goals simp only [withoutImmediate_eq_ok, ← BitVec.toNat_inj] at *
  all_goals simp_all

/-- Everything the decoder can answer on a CTRL8 byte (R86). -/
theorem decodeCtrl8_cases {b : Byte} {i : Instr} (h : decodeCtrl8 b = .ok i) :
    (b.extractLsb' 3 5 = 0b10110 ∧ i = .setPage (b.extractLsb' 0 3).toNat) ∨
    (b = 0x02 ∧ i = .setColLo) ∨ (b = 0x10 ∧ i = .setColHi) := by
  unfold decodeCtrl8 at h
  split at h
  · cases h
    exact .inl ⟨by assumption, rfl⟩
  · split at h
    · cases h
      exact .inr (.inl ⟨by assumption, rfl⟩)
    · split at h <;> cases h
      exact .inr (.inr ⟨by assumption, rfl⟩)

end Sys2Proof
end

