-- ==== Sys2Proof/Laws/Memory.lean ====
section
/-! SUPPORT. The laws of the memories FB and BM: read after write, canonical form, and that a memory in
canonical form is determined by what is read from it. -/

namespace Sys2Proof.Machine

variable {α : Type}

@[simp] theorem Memory.read_nil (a : Nat) : Memory.read ([] : Memory α) a = none := rfl

theorem Memory.read_cons (b : Nat) (w : α) (m : Memory α) (a : Nat) :
    Memory.read ((b, w) :: m) a = if a = b then some w else Memory.read m a := rfl

/-- What a write does to every read. -/
theorem Memory.read_write (m : Memory α) (a : Nat) (v : α) (c : Nat) :
    Memory.read (Memory.write m a v) c = if c = a then some v else Memory.read m c := by
  induction m with
  | nil => simp [Memory.write, Memory.read_cons]
  | cons x m ih =>
    obtain ⟨b, w⟩ := x
    unfold Memory.write
    split
    · simp [Memory.read_cons]
    · split
      · subst_vars
        simp only [Memory.read_cons]
        split <;> rfl
      · simp only [Memory.read_cons, ih]
        split <;> split <;> simp_all

@[simp] theorem Memory.read_write_same (m : Memory α) (a : Nat) (v : α) :
    Memory.read (Memory.write m a v) a = some v := by simp [Memory.read_write]

theorem Memory.read_write_other (m : Memory α) (a : Nat) (v : α) {c : Nat} (h : c ≠ a) :
    Memory.read (Memory.write m a v) c = Memory.read m c := by simp [Memory.read_write, h]

theorem Memory.sortedFrom_cons (size lo a : Nat) (v : α) (m : Memory α) :
    Memory.sortedFrom size lo ((a, v) :: m) = true ↔
      lo ≤ a ∧ a < size ∧ Memory.sortedFrom size (a + 1) m = true := by
  simp [Memory.sortedFrom, and_assoc]

theorem Memory.sortedFrom_mono {size lo lo' : Nat} {m : Memory α} (h : lo' ≤ lo)
    (hm : Memory.sortedFrom size lo m = true) : Memory.sortedFrom size lo' m = true := by
  cases m with
  | nil => rfl
  | cons x m =>
    rw [Memory.sortedFrom_cons] at *
    exact ⟨by omega, hm.2⟩

theorem Memory.sortedFrom_write {size lo : Nat} {m : Memory α} {a : Nat} (v : α) (hlo : lo ≤ a)
    (ha : a < size) (hm : Memory.sortedFrom size lo m = true) :
    Memory.sortedFrom size lo (Memory.write m a v) = true := by
  induction m generalizing lo with
  | nil => simp [Memory.write, Memory.sortedFrom, hlo, ha]
  | cons x m ih =>
    obtain ⟨b, w⟩ := x
    rw [Memory.sortedFrom_cons] at hm
    unfold Memory.write
    split
    · simp only [Memory.sortedFrom_cons]
      exact ⟨hlo, ha, by omega, hm.2⟩
    · split
      · subst_vars
        simp only [Memory.sortedFrom_cons]
        exact ⟨hlo, ha, hm.2.2⟩
      · simp only [Memory.sortedFrom_cons]
        exact ⟨hm.1, hm.2.1, ih (by omega) hm.2.2⟩

/-- A write inside the memory keeps its canonical form. -/
theorem Memory.wf_write {size : Nat} {m : Memory α} {a : Nat} (v : α) (ha : a < size)
    (hm : Memory.wf size m = true) : Memory.wf size (Memory.write m a v) = true :=
  Memory.sortedFrom_write v (Nat.zero_le a) ha hm

theorem Memory.read_eq_none_of_lt {size lo : Nat} {m : Memory α} (hm : Memory.sortedFrom size lo m = true)
    {c : Nat} (hc : c < lo) : Memory.read m c = none := by
  induction m generalizing lo with
  | nil => rfl
  | cons x m ih =>
    obtain ⟨b, w⟩ := x
    rw [Memory.sortedFrom_cons] at hm
    rw [Memory.read_cons, if_neg (by omega), ih hm.2.2 (by omega)]

/-- Nothing is listed outside a memory in canonical form. -/
theorem Memory.read_eq_none_of_ge {size lo : Nat} {m : Memory α} (hm : Memory.sortedFrom size lo m = true)
    {c : Nat} (hc : size ≤ c) : Memory.read m c = none := by
  induction m generalizing lo with
  | nil => rfl
  | cons x m ih =>
    obtain ⟨b, w⟩ := x
    rw [Memory.sortedFrom_cons] at hm
    rw [Memory.read_cons, if_neg (by omega), ih hm.2.2]

theorem Memory.ext_sorted {size size' lo lo' : Nat} {m m' : Memory α}
    (hm : Memory.sortedFrom size lo m = true) (hm' : Memory.sortedFrom size' lo' m' = true)
    (h : ∀ a, Memory.read m a = Memory.read m' a) : m = m' := by
  induction m generalizing lo lo' m' with
  | nil =>
    cases m' with
    | nil => rfl
    | cons x m' =>
      have := h x.1
      simp [Memory.read] at this
  | cons x m ih =>
    obtain ⟨b, w⟩ := x
    cases m' with
    | nil =>
      have := h b
      simp [Memory.read] at this
    | cons x' m' =>
      obtain ⟨b', w'⟩ := x'
      rw [Memory.sortedFrom_cons] at hm hm'
      have hb : b = b' := by
        rcases Nat.lt_trichotomy b b' with hlt | heq | hgt
        · have := h b
          rw [Memory.read_cons, if_pos rfl, Memory.read_cons, if_neg (by omega),
            Memory.read_eq_none_of_lt hm'.2.2 (by omega)] at this
          simp at this
        · exact heq
        · have := h b'
          rw [Memory.read_cons, if_neg (by omega), Memory.read_cons, if_pos rfl,
            Memory.read_eq_none_of_lt hm.2.2 (by omega)] at this
          simp at this
      subst hb
      have hw : w = w' := by simpa [Memory.read_cons] using h b
      subst hw
      congr 1
      refine ih hm.2.2 hm'.2.2 fun a => ?_
      by_cases ha : a = b
      · subst ha
        rw [Memory.read_eq_none_of_lt hm.2.2 (by omega), Memory.read_eq_none_of_lt hm'.2.2 (by omega)]
      · have := h a
        rwa [Memory.read_cons, Memory.read_cons, if_neg ha, if_neg ha] at this

/-- Two memories in canonical form that read alike are the same data. -/
theorem Memory.ext_of_wf {size : Nat} {m m' : Memory α} (hm : Memory.wf size m = true)
    (hm' : Memory.wf size m' = true) (h : ∀ a, Memory.read m a = Memory.read m' a) : m = m' :=
  Memory.ext_sorted hm hm' h

/-! ### The framebuffer -/

theorem fbByte_write (fb : List Host.Cell) (i : Nat) (v : Byte) (a : Nat) :
    fbByte (Memory.write fb i v) a = if a = i then v else fbByte fb a := by
  unfold fbByte
  rw [Memory.read_write]
  split <;> simp

theorem bmCell_write (bm : Memory Pixel) (n : Nat) (p : Pixel) (c : Nat) :
    bmCell (Memory.write bm n p) c = if c = n then p else bmCell bm c := by
  unfold bmCell
  rw [Memory.read_write]
  split <;> simp

/-- A list of consecutive cells, each holding `v`, from `lo` on. -/
theorem read_consecutive (v : α) (n lo a : Nat) :
    Memory.read ((List.range' lo n).map fun i => (i, v)) a =
      if lo ≤ a ∧ a < lo + n then some v else none := by
  induction n generalizing lo with
  | zero => simp
  | succ n ih =>
    rw [List.range'_succ, List.map_cons, Memory.read_cons, ih]
    by_cases h : a = lo
    · simp [h]
    · rw [if_neg h]
      split <;> split <;> first | rfl | omega

theorem sortedFrom_consecutive (v : α) (n lo size : Nat) (h : lo + n ≤ size) :
    Memory.sortedFrom size lo ((List.range' lo n).map fun i => (i, v)) = true := by
  induction n generalizing lo with
  | zero => rfl
  | succ n ih =>
    rw [List.range'_succ, List.map_cons, Memory.sortedFrom_cons]
    exact ⟨Nat.le_refl _, by omega, ih (lo + 1) (by omega)⟩

theorem read_filledFB (v : Byte) (a : Nat) :
    Memory.read (filledFB v) a = if a < Config.fbSize then some v else none := by
  have := read_consecutive v Config.fbSize 0 a
  rw [← List.range_eq_range'] at this
  rw [filledFB, this]
  simp

theorem wf_filledFB (v : Byte) : Memory.wf Config.fbSize (filledFB v) = true := by
  have := sortedFrom_consecutive v Config.fbSize 0 Config.fbSize (by simp)
  rwa [← List.range_eq_range'] at this

theorem wf_blankFB : Memory.wf Config.fbSize blankFB = true := wf_filledFB _

theorem fbByte_blankFB {a : Nat} (h : a < Config.fbSize) : fbByte blankFB a = 0xFF := by
  rw [fbByte, blankFB, read_filledFB, if_pos h]
  rfl

theorem foldl_write_read (v : α) (l : List Nat) (m : Memory α) (a : Nat) :
    Memory.read (l.foldl (fun m i => Memory.write m i v) m) a =
      if a ∈ l then some v else Memory.read m a := by
  induction l generalizing m with
  | nil => simp
  | cons i l ih =>
    rw [List.foldl_cons, ih, Memory.read_write]
    by_cases h : a ∈ l
    · simp [h]
    · by_cases h' : a = i <;> simp [h, h']

theorem foldl_write_wf {size : Nat} (v : α) (l : List Nat) (m : Memory α) (hl : ∀ i ∈ l, i < size)
    (hm : Memory.wf size m = true) :
    Memory.wf size (l.foldl (fun m i => Memory.write m i v) m) = true := by
  induction l generalizing m with
  | nil => exact hm
  | cons i l ih =>
    exact ih _ (fun j hj => hl j (List.mem_cons_of_mem _ hj))
      (Memory.wf_write v (hl i List.mem_cons_self) hm)

/-- The fill as the loop the spec writes (R136, R160: `for i in 0..1023: MemWrite(i, 1, 0xFF)`) gives the
fill as the model writes it. -/
theorem fill_loop_eq_filledFB (v : Byte) (fb : List Host.Cell) (h : Memory.wf Config.fbSize fb = true) :
    (List.range Config.fbSize).foldl (fun (fb : Memory Byte) i => Memory.write fb i v) fb = filledFB v := by
  refine Memory.ext_of_wf (foldl_write_wf v _ _ (fun i hi => List.mem_range.mp hi) h) (wf_filledFB v)
    fun a => ?_
  rw [foldl_write_read, read_filledFB]
  simp only [List.mem_range]
  split
  · rfl
  · exact Memory.read_eq_none_of_ge h (by omega)

end Sys2Proof.Machine
end

