-- ==== Sys2Proof/Laws/State.lean ====
section
/-! SUPPORT. One lemma per field per named update of the state, so that no proof unfolds an update. -/

namespace Sys2Proof.Machine

/-! ### append -/

@[simp] theorem append_sp (s : State) (e : Event) : (s.append e).sp = s.sp + 1 := rfl
@[simp] theorem append_ds (s : State) (e : Event) : (s.append e).ds = s.ds := rfl
@[simp] theorem append_ret (s : State) (e : Event) : (s.append e).ret = s.ret := rfl
@[simp] theorem append_fault (s : State) (e : Event) : (s.append e).fault = s.fault := rfl
@[simp] theorem append_fblen (s : State) (e : Event) : (s.append e).fblen = s.fblen := rfl
@[simp] theorem append_bmw (s : State) (e : Event) : (s.append e).bmw = s.bmw := rfl
@[simp] theorem append_bmh (s : State) (e : Event) : (s.append e).bmh = s.bmh := rfl
@[simp] theorem append_transport (s : State) (e : Event) : (s.append e).transport = s.transport := rfl
@[simp] theorem append_fb (s : State) (e : Event) : (s.append e).fb = s.fb := rfl
@[simp] theorem append_bm (s : State) (e : Event) : (s.append e).bm = s.bm := rfl
@[simp] theorem append_pinRst (s : State) (e : Event) : (s.append e).pinRst = s.pinRst := rfl
@[simp] theorem append_pinDc (s : State) (e : Event) : (s.append e).pinDc = s.pinDc := rfl
@[simp] theorem append_pinCs (s : State) (e : Event) : (s.append e).pinCs = s.pinCs := rfl
@[simp] theorem append_pinBl (s : State) (e : Event) : (s.append e).pinBl = s.pinBl := rfl
@[simp] theorem append_trace (s : State) (e : Event) : (s.append e).trace = s.trace ++ [e] := rfl
@[simp] theorem append_inputs (s : State) (e : Event) : (s.append e).inputs = s.inputs := rfl
@[simp] theorem append_replies (s : State) (e : Event) : (s.append e).replies = s.replies := rfl
@[simp] theorem append_initOracle (s : State) (e : Event) : (s.append e).initOracle = s.initOracle := rfl
@[simp] theorem append_busOracle (s : State) (e : Event) : (s.append e).busOracle = s.busOracle := rfl

/-! ### raise -/

@[simp] theorem raise_sp (c : FaultCode) (s : State) : (raise c s).sp = 0 := rfl
@[simp] theorem raise_ds (c : FaultCode) (s : State) : (raise c s).ds = .halt := rfl
@[simp] theorem raise_ret (c : FaultCode) (s : State) : (raise c s).ret = true := rfl
@[simp] theorem raise_fault (c : FaultCode) (s : State) : (raise c s).fault = c := rfl
@[simp] theorem raise_fblen (c : FaultCode) (s : State) : (raise c s).fblen = s.fblen := rfl
@[simp] theorem raise_bmw (c : FaultCode) (s : State) : (raise c s).bmw = s.bmw := rfl
@[simp] theorem raise_bmh (c : FaultCode) (s : State) : (raise c s).bmh = s.bmh := rfl
@[simp] theorem raise_transport (c : FaultCode) (s : State) : (raise c s).transport = s.transport := rfl
@[simp] theorem raise_fb (c : FaultCode) (s : State) : (raise c s).fb = s.fb := rfl
@[simp] theorem raise_bm (c : FaultCode) (s : State) : (raise c s).bm = s.bm := rfl
@[simp] theorem raise_pinRst (c : FaultCode) (s : State) : (raise c s).pinRst = s.pinRst := rfl
@[simp] theorem raise_pinDc (c : FaultCode) (s : State) : (raise c s).pinDc = s.pinDc := rfl
@[simp] theorem raise_pinCs (c : FaultCode) (s : State) : (raise c s).pinCs = s.pinCs := rfl
@[simp] theorem raise_pinBl (c : FaultCode) (s : State) : (raise c s).pinBl = s.pinBl := rfl
@[simp] theorem raise_trace (c : FaultCode) (s : State) : (raise c s).trace = s.trace := rfl
@[simp] theorem raise_inputs (c : FaultCode) (s : State) : (raise c s).inputs = s.inputs := rfl
@[simp] theorem raise_replies (c : FaultCode) (s : State) : (raise c s).replies = s.replies := rfl
@[simp] theorem raise_initOracle (c : FaultCode) (s : State) : (raise c s).initOracle = s.initOracle := rfl
@[simp] theorem raise_busOracle (c : FaultCode) (s : State) : (raise c s).busOracle = s.busOracle := rfl

/-! ### returnFail -/

@[simp] theorem returnFail_sp (s : State) : (returnFail s).sp = 0 := rfl
@[simp] theorem returnFail_ds (s : State) : (returnFail s).ds = s.ds := rfl
@[simp] theorem returnFail_ret (s : State) : (returnFail s).ret = true := rfl
@[simp] theorem returnFail_fault (s : State) : (returnFail s).fault = s.fault := rfl
@[simp] theorem returnFail_fblen (s : State) : (returnFail s).fblen = s.fblen := rfl
@[simp] theorem returnFail_bmw (s : State) : (returnFail s).bmw = s.bmw := rfl
@[simp] theorem returnFail_bmh (s : State) : (returnFail s).bmh = s.bmh := rfl
@[simp] theorem returnFail_transport (s : State) : (returnFail s).transport = s.transport := rfl
@[simp] theorem returnFail_fb (s : State) : (returnFail s).fb = s.fb := rfl
@[simp] theorem returnFail_bm (s : State) : (returnFail s).bm = s.bm := rfl
@[simp] theorem returnFail_pinRst (s : State) : (returnFail s).pinRst = s.pinRst := rfl
@[simp] theorem returnFail_pinDc (s : State) : (returnFail s).pinDc = s.pinDc := rfl
@[simp] theorem returnFail_pinCs (s : State) : (returnFail s).pinCs = s.pinCs := rfl
@[simp] theorem returnFail_pinBl (s : State) : (returnFail s).pinBl = s.pinBl := rfl
@[simp] theorem returnFail_trace (s : State) : (returnFail s).trace = s.trace := rfl
@[simp] theorem returnFail_inputs (s : State) : (returnFail s).inputs = s.inputs := rfl
@[simp] theorem returnFail_replies (s : State) : (returnFail s).replies = s.replies := rfl
@[simp] theorem returnFail_initOracle (s : State) : (returnFail s).initOracle = s.initOracle := rfl
@[simp] theorem returnFail_busOracle (s : State) : (returnFail s).busOracle = s.busOracle := rfl

/-! ### finish -/

@[simp] theorem finish_sp (s : State) : (finish s).sp = 0 := rfl
@[simp] theorem finish_ds (s : State) : (finish s).ds = s.ds := rfl
@[simp] theorem finish_ret (s : State) : (finish s).ret = false := rfl
@[simp] theorem finish_fault (s : State) : (finish s).fault = s.fault := rfl
@[simp] theorem finish_fblen (s : State) : (finish s).fblen = s.fblen := rfl
@[simp] theorem finish_bmw (s : State) : (finish s).bmw = s.bmw := rfl
@[simp] theorem finish_bmh (s : State) : (finish s).bmh = s.bmh := rfl
@[simp] theorem finish_transport (s : State) : (finish s).transport = s.transport := rfl
@[simp] theorem finish_fb (s : State) : (finish s).fb = s.fb := rfl
@[simp] theorem finish_bm (s : State) : (finish s).bm = s.bm := rfl
@[simp] theorem finish_pinRst (s : State) : (finish s).pinRst = s.pinRst := rfl
@[simp] theorem finish_pinDc (s : State) : (finish s).pinDc = s.pinDc := rfl
@[simp] theorem finish_pinCs (s : State) : (finish s).pinCs = s.pinCs := rfl
@[simp] theorem finish_pinBl (s : State) : (finish s).pinBl = s.pinBl := rfl
@[simp] theorem finish_trace (s : State) : (finish s).trace = s.trace := rfl
@[simp] theorem finish_inputs (s : State) : (finish s).inputs = s.inputs := rfl
@[simp] theorem finish_replies (s : State) : (finish s).replies = s.replies := rfl
@[simp] theorem finish_initOracle (s : State) : (finish s).initOracle = s.initOracle := rfl
@[simp] theorem finish_busOracle (s : State) : (finish s).busOracle = s.busOracle := rfl

/-! ### refuseHalted -/

@[simp] theorem refuseHalted_sp (s : State) : (refuseHalted s).sp = s.sp := rfl
@[simp] theorem refuseHalted_ds (s : State) : (refuseHalted s).ds = s.ds := rfl
@[simp] theorem refuseHalted_ret (s : State) : (refuseHalted s).ret = true := rfl
@[simp] theorem refuseHalted_fault (s : State) : (refuseHalted s).fault = s.fault := rfl
@[simp] theorem refuseHalted_fblen (s : State) : (refuseHalted s).fblen = s.fblen := rfl
@[simp] theorem refuseHalted_bmw (s : State) : (refuseHalted s).bmw = s.bmw := rfl
@[simp] theorem refuseHalted_bmh (s : State) : (refuseHalted s).bmh = s.bmh := rfl
@[simp] theorem refuseHalted_transport (s : State) : (refuseHalted s).transport = s.transport := rfl
@[simp] theorem refuseHalted_fb (s : State) : (refuseHalted s).fb = s.fb := rfl
@[simp] theorem refuseHalted_bm (s : State) : (refuseHalted s).bm = s.bm := rfl
@[simp] theorem refuseHalted_pinRst (s : State) : (refuseHalted s).pinRst = s.pinRst := rfl
@[simp] theorem refuseHalted_pinDc (s : State) : (refuseHalted s).pinDc = s.pinDc := rfl
@[simp] theorem refuseHalted_pinCs (s : State) : (refuseHalted s).pinCs = s.pinCs := rfl
@[simp] theorem refuseHalted_pinBl (s : State) : (refuseHalted s).pinBl = s.pinBl := rfl
@[simp] theorem refuseHalted_trace (s : State) : (refuseHalted s).trace = s.trace := rfl
@[simp] theorem refuseHalted_inputs (s : State) : (refuseHalted s).inputs = s.inputs := rfl
@[simp] theorem refuseHalted_replies (s : State) : (refuseHalted s).replies = s.replies := rfl
@[simp] theorem refuseHalted_initOracle (s : State) : (refuseHalted s).initOracle = s.initOracle := rfl
@[simp] theorem refuseHalted_busOracle (s : State) : (refuseHalted s).busOracle = s.busOracle := rfl

/-! ### hwReset -/

@[simp] theorem hwReset_sp (s : State) : (hwReset s).sp = s.sp + 6 := rfl
@[simp] theorem hwReset_ds (s : State) : (hwReset s).ds = s.ds := rfl
@[simp] theorem hwReset_ret (s : State) : (hwReset s).ret = s.ret := rfl
@[simp] theorem hwReset_fault (s : State) : (hwReset s).fault = s.fault := rfl
@[simp] theorem hwReset_fblen (s : State) : (hwReset s).fblen = s.fblen := rfl
@[simp] theorem hwReset_bmw (s : State) : (hwReset s).bmw = s.bmw := rfl
@[simp] theorem hwReset_bmh (s : State) : (hwReset s).bmh = s.bmh := rfl
@[simp] theorem hwReset_transport (s : State) : (hwReset s).transport = s.transport := rfl
@[simp] theorem hwReset_fb (s : State) : (hwReset s).fb = s.fb := rfl
@[simp] theorem hwReset_bm (s : State) : (hwReset s).bm = s.bm := rfl
@[simp] theorem hwReset_pinRst (s : State) : (hwReset s).pinRst = .high := rfl
@[simp] theorem hwReset_pinDc (s : State) : (hwReset s).pinDc = s.pinDc := rfl
@[simp] theorem hwReset_pinCs (s : State) : (hwReset s).pinCs = s.pinCs := rfl
@[simp] theorem hwReset_pinBl (s : State) : (hwReset s).pinBl = s.pinBl := rfl
@[simp] theorem hwReset_inputs (s : State) : (hwReset s).inputs = s.inputs := rfl
@[simp] theorem hwReset_replies (s : State) : (hwReset s).replies = s.replies := rfl
@[simp] theorem hwReset_initOracle (s : State) : (hwReset s).initOracle = s.initOracle := rfl
@[simp] theorem hwReset_busOracle (s : State) : (hwReset s).busOracle = s.busOracle := rfl

/-! ### reply -/

@[simp] theorem reply_sp (s : State) (r : Reply) : (s.reply r).sp = s.sp := rfl
@[simp] theorem reply_ds (s : State) (r : Reply) : (s.reply r).ds = s.ds := rfl
@[simp] theorem reply_ret (s : State) (r : Reply) : (s.reply r).ret = s.ret := rfl
@[simp] theorem reply_fault (s : State) (r : Reply) : (s.reply r).fault = s.fault := rfl
@[simp] theorem reply_fblen (s : State) (r : Reply) : (s.reply r).fblen = s.fblen := rfl
@[simp] theorem reply_bmw (s : State) (r : Reply) : (s.reply r).bmw = s.bmw := rfl
@[simp] theorem reply_bmh (s : State) (r : Reply) : (s.reply r).bmh = s.bmh := rfl
@[simp] theorem reply_transport (s : State) (r : Reply) : (s.reply r).transport = s.transport := rfl
@[simp] theorem reply_fb (s : State) (r : Reply) : (s.reply r).fb = s.fb := rfl
@[simp] theorem reply_bm (s : State) (r : Reply) : (s.reply r).bm = s.bm := rfl
@[simp] theorem reply_pinRst (s : State) (r : Reply) : (s.reply r).pinRst = s.pinRst := rfl
@[simp] theorem reply_pinDc (s : State) (r : Reply) : (s.reply r).pinDc = s.pinDc := rfl
@[simp] theorem reply_pinCs (s : State) (r : Reply) : (s.reply r).pinCs = s.pinCs := rfl
@[simp] theorem reply_pinBl (s : State) (r : Reply) : (s.reply r).pinBl = s.pinBl := rfl
@[simp] theorem reply_trace (s : State) (r : Reply) : (s.reply r).trace = s.trace := rfl
@[simp] theorem reply_inputs (s : State) (r : Reply) : (s.reply r).inputs = s.inputs := rfl
@[simp] theorem reply_replies (s : State) (r : Reply) : (s.reply r).replies = s.replies ++ [r] := rfl
@[simp] theorem reply_initOracle (s : State) (r : Reply) : (s.reply r).initOracle = s.initOracle := rfl
@[simp] theorem reply_busOracle (s : State) (r : Reply) : (s.reply r).busOracle = s.busOracle := rfl

/-- The reset pulse appends its six events, in order (R130). -/
@[simp] theorem hwReset_trace (s : State) : (hwReset s).trace = s.trace ++
    [.pinRst .high, .wait 100, .pinRst .low, .wait 100, .pinRst .high, .wait 100] := by
  simp [hwReset, driveReset, State.append]

end Sys2Proof.Machine
end

