-- ==== Sys2Proof/Laws/Pack.lean ====
section
/-! SUPPORT. What painting pixels does to every bit of FB (42_packer.md R160 to R163, R168). -/

namespace Sys2Proof.Machine

@[simp] theorem mem_grid (w h x y : Nat) : (x, y) ∈ grid w h ↔ x < w ∧ y < h := by
  simp only [grid, List.mem_flatMap, List.mem_map, List.mem_range, Prod.mk.injEq]
  constructor
  · rintro ⟨y', hy, x', hx, rfl, rfl⟩
    exact ⟨hx, hy⟩
  · rintro ⟨hx, hy⟩
    exact ⟨y, hy, x, hx, rfl, rfl⟩

/-- Clearing bit `k` of a byte leaves every other bit (R12). -/
theorem getLsbD_clear (v : Byte) {j k : Nat} (hj : j < 8) (hk : k < 8) :
    (v &&& ~~~(1#8 <<< k)).getLsbD j = (v.getLsbD j && !decide (j = k)) := by
  have : (1#8 <<< k).getLsbD j = decide (j = k) := by
    rw [BitVec.getLsbD_shiftLeft, BitVec.getLsbD_one]
    by_cases h : j = k
    · subst h; simp [hj]
    · rcases Nat.lt_or_ge j k with h' | h'
      · simp [h', h]
      · simp [h, hj]; omega
  rw [BitVec.getLsbD_and, BitVec.getLsbD_not, this]
  simp [hj]

theorem fbByte_clearBit (fb : List Host.Cell) (i k a : Nat) :
    fbByte (clearBit fb i k) a = if a = i then fbByte fb i &&& ~~~(1#8 <<< k) else fbByte fb a :=
  fbByte_write fb i _ a

theorem pixelBit_lt (y : Nat) : pixelBit y < 8 := Nat.mod_lt y (by omega)

/-- What one pixel does to every bit of FB. -/
theorem paintPixel_bit (p : Nat → Nat → Pixel) (index : Nat → Nat → Nat) (fb : List Host.Cell)
    (v : Nat × Nat) (a : Nat) {j : Nat} (hj : j < 8) :
    (fbByte (paintPixel p index fb v) a).getLsbD j = true ↔
      (fbByte fb a).getLsbD j = true ∧ (p v.1 v.2 = .ink → index v.1 v.2 = a → pixelBit v.2 ≠ j) := by
  unfold paintPixel
  cases p v.1 v.2 with
  | background => simp
  | ink =>
    simp only [fbByte_clearBit, true_implies]
    by_cases h : a = index v.1 v.2
    · rw [if_pos h, getLsbD_clear _ hj (pixelBit_lt _)]
      subst h
      simp only [Bool.and_eq_true, Bool.not_eq_true', decide_eq_false_iff_not, true_implies, ne_eq]
      exact and_congr_right fun _ => not_congr eq_comm
    · rw [if_neg h]
      exact ⟨fun hb => ⟨hb, fun hi => absurd hi.symm h⟩, fun hb => hb.1⟩

/-- A bit of FB after painting is 1 exactly when it was 1 before and no ink pixel visited falls on it. -/
theorem paint_bit (p : Nat → Nat → Pixel) (index : Nat → Nat → Nat) (visits : List (Nat × Nat))
    (fb : List Host.Cell) (a : Nat) {j : Nat} (hj : j < 8) :
    (fbByte (paint p index visits fb) a).getLsbD j = true ↔
      (fbByte fb a).getLsbD j = true ∧
        ∀ v ∈ visits, p v.1 v.2 = .ink → index v.1 v.2 = a → pixelBit v.2 ≠ j := by
  induction visits generalizing fb with
  | nil => simp [paint]
  | cons v visits ih =>
    have := ih (paintPixel p index fb v)
    simp only [paint, List.foldl_cons] at this ⊢
    rw [this, paintPixel_bit p index fb v a hj]
    simp only [List.forall_mem_cons, and_assoc]

/-- Painting visits inside FB keeps its canonical form. -/
theorem wf_paint (p : Nat → Nat → Pixel) (index : Nat → Nat → Nat) (visits : List (Nat × Nat))
    (fb : List Host.Cell) (hv : ∀ v ∈ visits, index v.1 v.2 < Config.fbSize)
    (hfb : Memory.wf Config.fbSize fb = true) :
    Memory.wf Config.fbSize (paint p index visits fb) = true := by
  induction visits generalizing fb with
  | nil => exact hfb
  | cons v visits ih =>
    refine ih _ (fun u hu => hv u (List.mem_cons_of_mem _ hu)) ?_
    unfold paintPixel
    split
    · exact Memory.wf_write _ (hv v List.mem_cons_self) hfb
    · exact hfb

/-- Painting never unlists a cell. -/
theorem read_paint_isSome (p : Nat → Nat → Pixel) (index : Nat → Nat → Nat) (visits : List (Nat × Nat))
    (fb : List Host.Cell) (a : Nat) (h : (Memory.read fb a).isSome) :
    (Memory.read (paint p index visits fb) a).isSome := by
  induction visits generalizing fb with
  | nil => exact h
  | cons v visits ih =>
    refine ih _ ?_
    unfold paintPixel
    split
    · rw [clearBit, Memory.read_write]
      split <;> simp [h]
    · exact h

/-- R168: no index leaves FB in the native shape. -/
theorem nativeIndex_lt {x y : Nat} (hx : x < 128) (hy : y < 64) : nativeIndex x y < Config.fbSize := by
  simp only [nativeIndex, Config.width, Config.fbSize]
  omega

/-- R168: no index leaves FB in the rotated shape. -/
theorem rotatedIndex_lt {x y : Nat} (hy : y < 128) : rotatedIndex x y < Config.fbSize := by
  simp only [rotatedIndex, Config.width, Config.height, Config.fbSize]
  omega

theorem wf_packNative (p : Nat → Nat → Pixel) : Memory.wf Config.fbSize (packNative p) = true :=
  wf_paint _ _ _ _ (fun v hv => nativeIndex_lt ((mem_grid 128 64 v.1 v.2).mp hv).1
    ((mem_grid 128 64 v.1 v.2).mp hv).2) wf_blankFB

theorem wf_packRotated (p : Nat → Nat → Pixel) : Memory.wf Config.fbSize (packRotated p) = true :=
  wf_paint _ _ _ _ (fun v hv => rotatedIndex_lt ((mem_grid 64 128 v.1 v.2).mp hv).2) wf_blankFB

/-- Every byte of a packed buffer is written. -/
theorem read_pack_isSome (p : Nat → Nat → Pixel) (index : Nat → Nat → Nat) (visits : List (Nat × Nat))
    {a : Nat} (h : a < Config.fbSize) :
    (Memory.read (paint p index visits blankFB) a).isSome :=
  read_paint_isSome _ _ _ _ _ (by rw [blankFB, read_filledFB, if_pos h]; rfl)

/-- A bit of a packed buffer, for either mapping and any visits. -/
theorem pack_bit (p : Nat → Nat → Pixel) (index : Nat → Nat → Nat) (visits : List (Nat × Nat))
    {a j : Nat} (ha : a < Config.fbSize) (hj : j < 8) :
    (fbByte (paint p index visits blankFB) a).getLsbD j = true ↔
      ∀ v ∈ visits, p v.1 v.2 = .ink → index v.1 v.2 = a → pixelBit v.2 ≠ j := by
  rw [paint_bit p index visits blankFB a hj, fbByte_blankFB ha]
  have : (0xFF : Byte).getLsbD j = true := by
    have h : ∀ j < 8, (0xFF : Byte).getLsbD j = true := by decide
    exact h j hj
  exact ⟨fun h => h.2, fun h => ⟨this, h⟩⟩

/-- Two framebuffers in canonical form with every cell written and the same bytes are the same data. -/
theorem fb_ext {fb fb' : List Host.Cell} (h : Memory.wf Config.fbSize fb = true)
    (h' : Memory.wf Config.fbSize fb' = true)
    (hs : ∀ a, a < Config.fbSize → (Memory.read fb a).isSome)
    (hs' : ∀ a, a < Config.fbSize → (Memory.read fb' a).isSome)
    (hb : ∀ a, a < Config.fbSize → fbByte fb a = fbByte fb' a) : fb = fb' := by
  refine Memory.ext_of_wf h h' fun a => ?_
  by_cases ha : a < Config.fbSize
  · have e := hb a ha
    obtain ⟨v, hv⟩ := Option.isSome_iff_exists.mp (hs a ha)
    obtain ⟨v', hv'⟩ := Option.isSome_iff_exists.mp (hs' a ha)
    simp only [fbByte, hv, hv', Option.getD_some] at e
    rw [hv, hv', e]
  · rw [Memory.read_eq_none_of_ge h (by omega), Memory.read_eq_none_of_ge h' (by omega)]

end Sys2Proof.Machine
end

