-- ==== Sys2Proof/Laws/Run.lean ====
section
/-! SUPPORT. What the transport primitives and a sequence of sends can do: each once, so that callers never
unfold them. A send is a pair (is it a data byte?, the byte). -/

namespace Sys2Proof.Machine

/-! ### The oracle -/

@[simp] theorem Oracle.answer_after (free : Nat → Bool) (o : Oracle) (k j : Nat) :
    (o.after k).answer free j = o.answer free (k + j) := by
  simp [Oracle.answer, Oracle.after, Nat.add_assoc]

@[simp] theorem Oracle.after_zero (o : Oracle) : o.after 0 = o := by cases o; simp [Oracle.after]

@[simp] theorem Oracle.after_after (o : Oracle) (j k : Nat) : (o.after j).after k = o.after (j + k) := by
  simp [Oracle.after, Nat.add_assoc]

/-- Answers queued in advance are the ones given. -/
theorem Oracle.answer_queued (free : Nat → Bool) (o : Oracle) {k : Nat} (h : k < o.queued.length) :
    o.answer free k = o.queued[k] := by simp [Oracle.answer, h]

/-! ### Sequencing -/

@[simp] theorem Run.andThen_running (s : State) (f : State → Run) : (Run.running s).andThen f = f s := rfl

@[simp] theorem Run.andThen_ended (s : State) (f : State → Run) : (Run.ended s).andThen f = .ended s := rfl

theorem Run.andThen_assoc (r : Run) (f g : State → Run) :
    (r.andThen f).andThen g = r.andThen fun s => (f s).andThen g := by cases r <;> rfl

@[simp] theorem Run.andThen_id (r : Run) : r.andThen Run.running = r := by cases r <;> rfl

@[simp] theorem Run.close_running (s : State) : (Run.running s).close = finish s := rfl

@[simp] theorem Run.close_ended (s : State) : (Run.ended s).close = s := rfl

/-- If the sequence runs on, so did its first part and then its second. -/
theorem Run.andThen_eq_running {r : Run} {f : State → Run} {t : State} (h : r.andThen f = .running t) :
    ∃ u, r = .running u ∧ f u = .running t := by
  cases r with
  | running u => exact ⟨u, rfl, h⟩
  | ended u => cases h

/-- If the sequence ends early, its first part did or its second did. -/
theorem Run.andThen_eq_ended {r : Run} {f : State → Run} {t : State} (h : r.andThen f = .ended t) :
    r = .ended t ∨ ∃ u, r = .running u ∧ f u = .ended t := by
  cases r with
  | running u => exact .inr ⟨u, rfl, h⟩
  | ended u => cases h; exact .inl rfl

variable {α : Type}

@[simp] theorem forEach_nil (body : α → State → Run) (s : State) : forEach [] body s = .running s := rfl

theorem forEach_cons (a : α) (l : List α) (body : α → State → Run) (s : State) :
    forEach (a :: l) body s = (body a s).andThen (forEach l body) := rfl

theorem forEach_append (l l' : List α) (body : α → State → Run) (s : State) :
    forEach (l ++ l') body s = (forEach l body s).andThen (forEach l' body) := by
  induction l generalizing s with
  | nil => rfl
  | cons a l ih =>
    rw [List.cons_append, forEach_cons, forEach_cons, Run.andThen_assoc]
    congr 1
    exact funext ih

theorem forEach_map {β : Type} (f : β → α) (l : List β) (body : α → State → Run) (s : State) :
    forEach (l.map f) body s = forEach l (fun b => body (f b)) s := by
  induction l generalizing s with
  | nil => rfl
  | cons b l ih =>
    rw [List.map_cons, forEach_cons, forEach_cons]
    congr 1
    exact funext ih

theorem forEach_flatMap {β : Type} (f : β → List α) (l : List β) (body : α → State → Run) (s : State) :
    forEach (l.flatMap f) body s = forEach l (fun b => forEach (f b) body) s := by
  induction l generalizing s with
  | nil => rfl
  | cons b l ih =>
    rw [List.flatMap_cons, forEach_append, forEach_cons]
    congr 1
    exact funext ih

/-! ### One send -/

/-- Send one byte, a data byte if the flag says so. -/
def sendOne (x : Bool × Byte) (s : State) : Run := if x.1 then sendData x.2 s else sendCommand x.2 s

/-- The event of a send. -/
def sendEvent (t : Transport) (x : Bool × Byte) : Event :=
  if x.1 then dataEvent t x.2 else commandEvent t x.2

/-- `pin[DC]` after a send. -/
def sendDc (t : Transport) (x : Bool × Byte) (old : Level) : Level :=
  dcDriven (if x.1 then .high else .low) t old

/-- The state after a send that succeeds. -/
def State.sent (s : State) (x : Bool × Byte) : State :=
  { s with
    pinDc := sendDc s.transport x s.pinDc
    trace := s.trace ++ [sendEvent s.transport x]
    sp := s.sp + 1
    busOracle := s.busOracle.after 1 }

/-- The state after a send that fails: DC has its level, and the fault is taken (R115, R184). -/
def State.sendFailed (s : State) (x : Bool × Byte) : State :=
  { s with
    pinDc := sendDc s.transport x s.pinDc
    trace := s.trace ++ [.busFail]
    sp := 0
    ds := .halt
    ret := true
    fault := .transport
    busOracle := s.busOracle.after 1 }

theorem sendOne_eq (x : Bool × Byte) (s : State) :
    sendOne x s = if s.transferOk 0 = true then .running (s.sent x) else .ended (s.sendFailed x) := by
  obtain ⟨d, b⟩ := x
  cases d <;> cases ht : s.transport <;>
    simp [sendOne, sendCommand, sendData, transfer, ht, State.sent, State.sendFailed, sendDc, sendEvent, dcDriven,
      dataEvent, commandEvent, State.append, raise, State.transferOk]

theorem sendCommand_eq_sendOne (b : Byte) : sendCommand b = sendOne (false, b) := rfl

theorem sendData_eq_sendOne (b : Byte) : sendData b = sendOne (true, b) := rfl

/-! ### A sequence of sends -/

/-- Send a list of bytes in order. -/
def sendAll (l : List (Bool × Byte)) (s : State) : Run := forEach l sendOne s

theorem sendAll_append (l l' : List (Bool × Byte)) (s : State) :
    sendAll (l ++ l') s = (sendAll l s).andThen (sendAll l') := forEach_append l l' sendOne s

/-- `pin[DC]` after a list of sends. -/
def sendsDc (t : Transport) (l : List (Bool × Byte)) (old : Level) : Level :=
  l.foldl (fun v x => sendDc t x v) old

/-- The state after a list of sends that all succeed. -/
def State.sentAll (s : State) (l : List (Bool × Byte)) : State :=
  { s with
    pinDc := sendsDc s.transport l s.pinDc
    trace := s.trace ++ l.map (sendEvent s.transport)
    sp := s.sp + l.length
    busOracle := s.busOracle.after l.length }

@[simp] theorem State.sentAll_nil (s : State) : s.sentAll [] = s := by
  cases s; simp [State.sentAll, sendsDc]

theorem State.sentAll_cons (s : State) (x : Bool × Byte) (l : List (Bool × Byte)) :
    s.sentAll (x :: l) = (s.sent x).sentAll l := by
  simp [State.sentAll, State.sent, sendsDc, Nat.add_comm 1, Nat.add_assoc]

@[simp] theorem State.transferOk_sent (s : State) (x : Bool × Byte) (k : Nat) :
    (s.sent x).transferOk k = s.transferOk (k + 1) := by
  simp [State.transferOk, State.sent, Nat.add_comm 1]

@[simp] theorem State.transferOk_sentAll (s : State) (l : List (Bool × Byte)) (k : Nat) :
    (s.sentAll l).transferOk k = s.transferOk (l.length + k) := by
  simp [State.transferOk, State.sentAll]

theorem TransfersOk.sent {s : State} {n : Nat} (h : TransfersOk s (n + 1)) (x : Bool × Byte) :
    TransfersOk (s.sent x) n := fun k hk => by
  rw [State.transferOk_sent]
  exact h (k + 1) (by omega)

/-- With no transfer failing, a list of sends runs to its end. -/
theorem sendAll_of_ok {l : List (Bool × Byte)} {s : State} (h : TransfersOk s l.length) :
    sendAll l s = .running (s.sentAll l) := by
  induction l generalizing s with
  | nil => simp [sendAll]
  | cons x l ih =>
    rw [sendAll, forEach_cons, sendOne_eq, if_pos (h 0 (by simp)), Run.andThen_running, State.sentAll_cons]
    exact ih (h.sent x)

/-- With the transfer at position `n` failing, the first `n` sends are made and the `n`th takes the fault. -/
theorem sendAll_of_failsAt {l : List (Bool × Byte)} {s : State} {n : Nat} (hn : n < l.length)
    (h : TransferFailsAt s n) :
    sendAll l s = .ended ((s.sentAll (l.take n)).sendFailed l[n]) := by
  induction l generalizing s n with
  | nil => simp at hn
  | cons x l ih =>
    rw [sendAll, forEach_cons, sendOne_eq]
    cases n with
    | zero => simp [h.2]
    | succ n =>
      rw [if_pos (h.1 0 (by omega)), Run.andThen_running, List.take_succ_cons, State.sentAll_cons]
      exact ih (by simpa using hn) ⟨h.1.sent x, by simpa using h.2⟩

/-- Either the next `n` transfers all succeed, or one of them is the first to fail. -/
theorem transfersOk_or_failsAt (s : State) (n : Nat) :
    TransfersOk s n ∨ ∃ k, k < n ∧ TransferFailsAt s k := by
  induction n with
  | zero => exact .inl fun k hk => absurd hk (Nat.not_lt_zero k)
  | succ n ih =>
    obtain h | ⟨k, hk, h⟩ := ih
    · cases hn : s.transferOk n with
      | true =>
        refine .inl fun k hk => ?_
        obtain h' | h' := Nat.lt_succ_iff_lt_or_eq.mp hk
        · exact h k h'
        · exact h' ▸ hn
      | false => exact .inr ⟨n, Nat.lt_succ_self n, h, hn⟩
    · exact .inr ⟨k, Nat.lt_succ_of_lt hk, h⟩

/-- There is only one first failure. -/
theorem TransferFailsAt.unique {s : State} {n m : Nat} (h : TransferFailsAt s n)
    (h' : TransferFailsAt s m) : n = m := by
  rcases Nat.lt_trichotomy n m with h1 | h1 | h1
  · have := h'.1 n h1
    rw [h.2] at this
    cases this
  · exact h1
  · have := h.1 m h1
    rw [h'.2] at this
    cases this

theorem TransferFailsAt.not_ok {s : State} {n m : Nat} (h : TransferFailsAt s n) (hn : n < m) :
    ¬TransfersOk s m := fun h' => by
  have := h' n hn
  rw [h.2] at this
  cases this

/-- Everything a list of sends can do. -/
theorem sendAll_cases (l : List (Bool × Byte)) (s : State) :
    (TransfersOk s l.length ∧ sendAll l s = .running (s.sentAll l)) ∨
      ∃ n, ∃ hn : n < l.length, TransferFailsAt s n ∧
        sendAll l s = .ended ((s.sentAll (l.take n)).sendFailed l[n]) := by
  obtain h | ⟨n, hn, h⟩ := transfersOk_or_failsAt s l.length
  · exact .inl ⟨h, sendAll_of_ok h⟩
  · exact .inr ⟨n, hn, h, sendAll_of_failsAt hn h⟩

/-- Commands sent one after another (R132). -/
theorem forEach_sendCommand (l : List Byte) (s : State) :
    forEach l sendCommand s = sendAll (l.map fun b => (false, b)) s := by
  rw [sendAll, forEach_map]
  rfl

/-! ### The operation frame -/

theorem operation_of_halt {permitted : Lifecycle → Bool} {body : State → Run} {s : State}
    (h : s.ds = .halt) : operation permitted body s = refuseHalted s := by simp [operation, h]

theorem operation_of_permitted {permitted : Lifecycle → Bool} {body : State → Run} {s : State}
    (h : s.ds ≠ .halt) (hp : permitted s.ds = true) :
    operation permitted body s = (body { s with sp := 0 }).close := by simp [operation, h, hp]

theorem operation_of_not_permitted {permitted : Lifecycle → Bool} {body : State → Run} {s : State}
    (h : s.ds ≠ .halt) (hp : permitted s.ds = false) : operation permitted body s = raise .seq s := by
  simp [operation, h, hp]

/-- Everything the operation frame can do (R186). -/
theorem operation_cases (permitted : Lifecycle → Bool) (body : State → Run) (s : State) :
    (s.ds = .halt ∧ operation permitted body s = refuseHalted s) ∨
    (s.ds ≠ .halt ∧ permitted s.ds = false ∧ operation permitted body s = raise .seq s) ∨
    (s.ds ≠ .halt ∧ permitted s.ds = true ∧
      operation permitted body s = (body { s with sp := 0 }).close) := by
  by_cases h : s.ds = .halt
  · exact .inl ⟨h, operation_of_halt h⟩
  · cases hp : permitted s.ds with
    | false => exact .inr (.inl ⟨h, rfl, operation_of_not_permitted h hp⟩)
    | true => exact .inr (.inr ⟨h, rfl, operation_of_permitted h hp⟩)

/-- Everything a byte of the sequencer's own can do (assumption 8). -/
theorem sequencerByte_cases (b : Byte) (s : State) :
    (s.ds = .halt ∧ sequencerByte b s = s) ∨
    (s.ds ≠ .halt ∧ s.transferOk 0 = true ∧
      sequencerByte b s = { State.sent { s with sp := 0 } (false, b) with sp := 0 }) ∨
    (s.ds ≠ .halt ∧ s.transferOk 0 = false ∧
      sequencerByte b s = State.sendFailed { s with sp := 0 } (false, b)) := by
  by_cases h : s.ds = .halt
  · exact .inl ⟨h, by simp [sequencerByte, h]⟩
  · have ht : State.transferOk { s with sp := 0 } 0 = s.transferOk 0 := rfl
    cases hk : s.transferOk 0 with
    | false => exact .inr (.inr ⟨h, rfl, by simp [sequencerByte, h, sendCommand_eq_sendOne, sendOne_eq, ht, hk]⟩)
    | true => exact .inr (.inl ⟨h, rfl, by simp [sequencerByte, h, sendCommand_eq_sendOne, sendOne_eq, ht, hk]⟩)

end Sys2Proof.Machine
end

