-- ==== Sys2Proof/Laws/Show.lean ====
section
/-! SUPPORT. `ShowPages()` (41_driver.md R134) is one list of sends, and what that list is position by
position (R137). -/

namespace Sys2Proof.Machine

/-- The sends of one page (R134). -/
def pageSends (fb : List Host.Cell) (page : Nat) : List (Bool × Byte) :=
  (false, pageSelect page) :: (false, colLow) :: (false, colHigh) ::
    (List.range 128).map fun c => (true, shownByte (fbByte fb (128 * page + c)))

/-- The sends of `ShowPages()` (R134). -/
def showSends (fb : List Host.Cell) : List (Bool × Byte) := (List.range 8).flatMap (pageSends fb)

/-- The send at position `n` of `ShowPages()` (R137). -/
def showSend (fb : List Host.Cell) (n : Nat) : Bool × Byte :=
  if n % 131 = 0 then (false, pageSelect (n / 131))
  else if n % 131 = 1 then (false, colLow)
  else if n % 131 = 2 then (false, colHigh)
  else (true, shownByte (fbByte fb (128 * (n / 131) + (n % 131 - 3))))

theorem sendOne_keeps_fb {x : Bool × Byte} {s t : State} (h : sendOne x s = .running t) : t.fb = s.fb := by
  rw [sendOne_eq] at h
  split at h <;> cases h
  rfl

/-- A loop whose body sends what FB gives at the time is the list of what FB gives at the start, because no
send writes FB. -/
theorem forEach_send_of_fb {α : Type} (l : List α) (x : α → List Host.Cell → Bool × Byte) (s : State) :
    forEach l (fun a s => sendOne (x a s.fb) s) s = sendAll (l.map fun a => x a s.fb) s := by
  induction l generalizing s with
  | nil => rfl
  | cons a l ih =>
    rw [List.map_cons, sendAll, forEach_cons, forEach_cons]
    cases h : sendOne (x a s.fb) s with
    | running t => rw [Run.andThen_running, Run.andThen_running, ih, sendOne_keeps_fb h]; rfl
    | ended t => rfl

theorem sendAll_keeps_fb {l : List (Bool × Byte)} {s t : State} (h : sendAll l s = .running t) :
    t.fb = s.fb := by
  obtain ⟨_, h'⟩ | ⟨n, hn, _, h'⟩ := sendAll_cases l s <;> rw [h'] at h <;> cases h
  rfl

theorem sendHeader_then (p q r : Byte) (cs : List Nat) (x : Nat → List Host.Cell → Bool × Byte) (s : State) :
    ((sendCommand p s).andThen fun s => (sendCommand q s).andThen fun s => (sendCommand r s).andThen fun s =>
      forEach cs (fun c s => sendOne (x c s.fb) s) s) =
    sendAll ((false, p) :: (false, q) :: (false, r) :: cs.map fun c => x c s.fb) s := by
  simp only [sendCommand_eq_sendOne, forEach_send_of_fb]
  rw [sendAll, forEach_cons]
  cases h1 : sendOne (false, p) s with
  | ended t => rfl
  | running s1 =>
    rw [Run.andThen_running, Run.andThen_running, forEach_cons]
    cases h2 : sendOne (false, q) s1 with
    | ended t => rfl
    | running s2 =>
      rw [Run.andThen_running, Run.andThen_running, forEach_cons]
      cases h3 : sendOne (false, r) s2 with
      | ended t => rfl
      | running s3 =>
        rw [Run.andThen_running, Run.andThen_running, sendOne_keeps_fb h3, sendOne_keeps_fb h2,
          sendOne_keeps_fb h1]
        rfl

theorem sendPage_eq (page : Nat) (s : State) : sendPage page s = sendAll (pageSends s.fb page) s :=
  sendHeader_then (pageSelect page) colLow colHigh (List.range 128)
    (fun c fb => (true, shownByte (fbByte fb (128 * page + c)))) s

theorem forEach_sendPage (l : List Nat) (s : State) :
    forEach l sendPage s = sendAll (l.flatMap (pageSends s.fb)) s := by
  induction l generalizing s with
  | nil => rfl
  | cons p l ih =>
    rw [forEach_cons, sendPage_eq, List.flatMap_cons, sendAll_append]
    cases h : sendAll (pageSends s.fb p) s with
    | ended t => rfl
    | running t =>
      rw [Run.andThen_running, Run.andThen_running, ih, sendAll_keeps_fb h]

/-- `ShowPages()` is one list of sends. -/
theorem showPages_eq (s : State) : showPages s = sendAll (showSends s.fb) s := forEach_sendPage _ s

theorem pageSends_eq (fb : List Host.Cell) (page : Nat) :
    pageSends fb page = (List.range 131).map fun k => showSend fb (131 * page + k) := by
  have hr : List.range 131 = 0 :: 1 :: 2 :: (List.range 128).map (· + 3) := by decide
  have hdiv (k : Nat) (hk : k < 131) : (131 * page + k) / 131 = page := by omega
  rw [hr]
  simp only [List.map_cons, List.map_map, pageSends]
  congr 1
  · simp [showSend]
  congr 1
  · simp [showSend]
  congr 1
  · simp [showSend]
  refine List.map_congr_left fun c hc => ?_
  have hc' : c + 3 < 131 := by have := List.mem_range.mp hc; omega
  simp [showSend, hdiv _ hc', Nat.mod_eq_of_lt hc']

theorem flatMap_range_mul {α : Type} (f : Nat → α) (m n : Nat) :
    ((List.range n).flatMap fun p => (List.range m).map fun k => f (m * p + k)) =
      (List.range (m * n)).map f := by
  induction n with
  | zero => simp
  | succ n ih =>
    rw [List.range_succ, List.flatMap_append, ih, Nat.mul_succ, List.range_add, List.map_append]
    simp [Function.comp_def]

/-- The sends of `ShowPages()`, position by position (R137). -/
theorem showSends_eq (fb : List Host.Cell) : showSends fb = (List.range 1048).map (showSend fb) := by
  have : pageSends fb = fun p => (List.range 131).map fun k => showSend fb (131 * p + k) :=
    funext (pageSends_eq fb)
  rw [showSends, this, flatMap_range_mul]

@[simp] theorem showSends_length (fb : List Host.Cell) : (showSends fb).length = 1048 := by
  simp [showSends_eq]

/-- The events of the sends of `ShowPages()` (R134). -/
theorem showSends_events (t : Transport) (fb : List Host.Cell) :
    (showSends fb).map (sendEvent t) = frameEvents t fb := by
  have (page : Nat) : (pageSends fb page).map (sendEvent t) = pageEvents t fb page := by
    simp [pageSends, pageEvents, sendEvent, pageSelect, colLow, colHigh, shownByte, Function.comp_def]
  rw [showSends, List.map_flatMap, frameEvents]
  exact congrArg (fun f => List.flatMap f (List.range 8)) (funext this)

theorem showSends_take_events (t : Transport) (fb : List Host.Cell) (n : Nat) :
    ((showSends fb).take n).map (sendEvent t) = (frameEvents t fb).take n := by
  rw [List.map_take, showSends_events]

theorem sendDc_showSend (t : Transport) (fb : List Host.Cell) (n : Nat) (old : Level) :
    sendDc t (showSend fb n) old = showDc t n old := by
  have hn : n % 131 < 131 := Nat.mod_lt _ (by omega)
  unfold showSend showDc sendDc
  split
  · simp [*]
  · split
    · simp [*]
    · split
      · simp [*]
      · rw [if_neg (by omega : ¬ n % 131 < 3)]; rfl

/-- On I2C a list of sends leaves DC alone; on SPI the last send decides it. -/
theorem sendsDc_concat (t : Transport) (l : List (Bool × Byte)) (x : Bool × Byte) (old : Level) :
    sendsDc t (l ++ [x]) old = sendDc t x old := by
  rw [sendsDc, List.foldl_append]
  cases t
  · rfl
  · change sendDc .i2c x (sendsDc .i2c l old) = old
    have : ∀ l : List (Bool × Byte), sendsDc .i2c l old = old := fun l => by
      induction l with
      | nil => rfl
      | cons y l ih => exact ih
    exact this l

theorem sendsDc_showSends (t : Transport) (fb : List Host.Cell) (old : Level) :
    sendsDc t (showSends fb) old = dcDriven .high t old := by
  rw [showSends_eq, show (1048 : Nat) = 1047 + 1 from rfl, List.range_succ, List.map_append,
    List.map_singleton, sendsDc_concat, sendDc_showSend]
  rfl

/-- The state after a complete `ShowPages()` (R137). -/
theorem sentAll_showSends (s : State) (fb : List Host.Cell) : s.sentAll (showSends fb) =
    { s with
      pinDc := dcDriven .high s.transport s.pinDc
      trace := s.trace ++ frameEvents s.transport fb
      sp := s.sp + showLength
      busOracle := s.busOracle.after showLength } := by
  simp only [State.sentAll, sendsDc_showSends, showSends_events, showSends_length]

theorem sendDc_sendsDc (t : Transport) (x : Bool × Byte) (l : List (Bool × Byte)) (old : Level) :
    sendDc t x (sendsDc t l old) = sendDc t x old := by
  have := sendsDc_concat t l x old
  rwa [sendsDc, List.foldl_append] at this

/-- The state after a `ShowPages()` whose transfer at position `n` fails (R139). -/
theorem sendFailed_showSends (s : State) (fb : List Host.Cell) {n : Nat} (hn : n < (showSends fb).length) :
    (s.sentAll ((showSends fb).take n)).sendFailed (showSends fb)[n] =
    { s with
      pinDc := showDc s.transport n s.pinDc
      trace := s.trace ++ (frameEvents s.transport fb).take n ++ [.busFail]
      sp := 0
      ds := .halt
      ret := true
      fault := .transport
      busOracle := s.busOracle.after (n + 1) } := by
  have hn' : n < 1048 := by simpa using hn
  have hx : (showSends fb)[n]'hn = showSend fb n := by simp [showSends_eq]
  have hlen : ((showSends fb).take n).length = n := by
    rw [List.length_take, showSends_length, Nat.min_eq_left (Nat.le_of_lt hn')]
  simp only [State.sentAll, State.sendFailed, showSends_take_events, sendDc_sendsDc, hx,
    sendDc_showSend, hlen, Oracle.after_after]

/-- Everything `ShowPages()` can do. -/
theorem showPages_cases (s : State) :
    (TransfersOk s showLength ∧ showPages s = .running
      { s with
        pinDc := dcDriven .high s.transport s.pinDc
        trace := s.trace ++ frameEvents s.transport s.fb
        sp := s.sp + showLength
        busOracle := s.busOracle.after showLength }) ∨
    ∃ n, n < showLength ∧ TransferFailsAt s n ∧ showPages s = .ended
      { s with
        pinDc := showDc s.transport n s.pinDc
        trace := s.trace ++ (frameEvents s.transport s.fb).take n ++ [.busFail]
        sp := 0
        ds := .halt
        ret := true
        fault := .transport
        busOracle := s.busOracle.after (n + 1) } := by
  rw [showPages_eq]
  obtain ⟨h, h'⟩ | ⟨n, hn, h, h'⟩ := sendAll_cases (showSends s.fb) s
  · exact .inl ⟨by simpa using h, by rw [h', sentAll_showSends]⟩
  · exact .inr ⟨n, by simpa using hn, h, by rw [h', sendFailed_showSends]⟩

end Sys2Proof.Machine
end

