-- ==== Sys2Proof/Laws/Exec.lean ====
section
/-! SUPPORT. Everything the body of each operation can do, and what `exec` answers in each case. -/

namespace Sys2Proof.Machine

/-- The reset pulse (R130). -/
theorem hwReset_eq (s : State) : hwReset s =
    { s with pinRst := .high, trace := s.trace ++ resetPulse, sp := s.sp + 6 } := by
  simp [hwReset, driveReset, State.append, resetPulse]

/-- The sends of an initialization sequence (R132): every byte goes out as a command. -/
def commandSends (l : List Byte) : List (Bool × Byte) := l.map fun b => (false, b)

@[simp] theorem commandSends_length (l : List Byte) : (commandSends l).length = l.length := by
  simp [commandSends]

theorem commandSends_events (t : Transport) (l : List Byte) :
    (commandSends l).map (sendEvent t) = l.map (commandEvent t) := by
  simp [commandSends, sendEvent, Function.comp_def]

/-- The state INIT's body has reached before its commands: the draw made, the pulse emitted. -/
def State.pulsed (s : State) : State := hwReset { s with initOracle := s.initOracle.after 1 }

/-- Everything INIT's body can do (R132). -/
theorem initDisplay_cases (seq : List Byte) (s : State) :
    (s.initOk = false ∧
      initDisplay seq s = .ended (returnFail { s with initOracle := s.initOracle.after 1 })) ∨
    (s.initOk = true ∧ TransfersOk s seq.length ∧
      initDisplay seq s = .running { s.pulsed.sentAll (commandSends seq) with ds := .ready }) ∨
    (s.initOk = true ∧ ∃ n, ∃ hn : n < (commandSends seq).length, TransferFailsAt s n ∧
      initDisplay seq s =
        .ended ((s.pulsed.sentAll ((commandSends seq).take n)).sendFailed (commandSends seq)[n])) := by
  cases h : s.initOk with
  | false => exact .inl ⟨rfl, by simp [initDisplay, h]⟩
  | true =>
    have e : initDisplay seq s =
        (sendAll (commandSends seq) s.pulsed).andThen fun t => .running { t with ds := .ready } := by
      simp [initDisplay, h, forEach_sendCommand, State.pulsed, commandSends]
    obtain ⟨ht, hr⟩ | ⟨n, hn, ht, hr⟩ := sendAll_cases (commandSends seq) s.pulsed
    · exact .inr (.inl ⟨rfl, fun k hk => ht k (by simpa using hk), by rw [e, hr, Run.andThen_running]⟩)
    · exact .inr (.inr ⟨rfl, n, hn, ht, by rw [e, hr, Run.andThen_ended]⟩)

/-- Everything PACK's body can do (R160, R166). -/
theorem packBitmap_cases (s : State) :
    (s.bmw = 128 ∧ s.bmh = 64 ∧
      packBitmap s = .running { s with fb := packNative (pix s), fblen := 1024 }) ∨
    (s.bmw = 64 ∧ s.bmh = 128 ∧
      packBitmap s = .running { s with fb := packRotated (pix s), fblen := 1024 }) ∨
    (¬(s.bmw = 128 ∧ s.bmh = 64) ∧ ¬(s.bmw = 64 ∧ s.bmh = 128) ∧
      packBitmap s = .ended (raise .shape s)) := by
  by_cases hn : s.bmw = 128 ∧ s.bmh = 64
  · exact .inl ⟨hn.1, hn.2, by simp [packBitmap, hn]⟩
  · by_cases hr : s.bmw = 64 ∧ s.bmh = 128
    · exact .inr (.inl ⟨hr.1, hr.2, by simp [packBitmap, hr]⟩)
    · exact .inr (.inr ⟨hn, hr, by rw [packBitmap, if_neg hn, if_neg hr]⟩)

/-- Everything SHOW's body can do (R135): the length fault, or `ShowPages()`. -/
theorem showBuffer_cases (s : State) :
    (s.fblen = 1024 ∧ showBuffer s = showPages s) ∨
    (s.fblen ≠ 1024 ∧ showBuffer s = .ended (raise .length s)) := by
  by_cases h : s.fblen = 1024
  · exact .inl ⟨h, by rw [showBuffer, if_pos h]⟩
  · exact .inr ⟨h, by rw [showBuffer, if_neg h]⟩

/-- Everything CLEAR's body can do (R136): FB and FBLEN are written before the first event. -/
theorem clearDisplay_cases (s : State) :
    (TransfersOk s showLength ∧ clearDisplay s = .running
      { s with
        fb := blankFB
        fblen := 1024
        pinDc := dcDriven .high s.transport s.pinDc
        trace := s.trace ++ frameEvents s.transport blankFB
        sp := s.sp + showLength
        busOracle := s.busOracle.after showLength }) ∨
    ∃ n, n < showLength ∧ TransferFailsAt s n ∧ clearDisplay s = .ended
      { s with
        fb := blankFB
        fblen := 1024
        pinDc := showDc s.transport n s.pinDc
        trace := s.trace ++ (frameEvents s.transport blankFB).take n ++ [.busFail]
        sp := 0
        ds := .halt
        ret := true
        fault := .transport
        busOracle := s.busOracle.after (n + 1) } := by
  rw [clearDisplay]
  generalize blankFB = fb
  exact showPages_cases { s with fb := fb, fblen := 1024 }

/-- RESET and PACK are permitted wherever the block is not halted (R187). -/
theorem whenNotHalted_of_ne_halt {l : Lifecycle} (h : l ≠ .halt) : whenNotHalted l = true := by
  cases l <;> simp_all [whenNotHalted]

/-! ### Every instruction answers a next state -/

theorem exec_cmd (b : Byte) (s : State) :
    exec (.cmd b) s = .next (operation whenReady (sendOne (false, b)) s) := rfl

theorem exec_data (b : Byte) (s : State) :
    exec (.data b) s = .next (operation whenReady (sendOne (true, b)) s) := rfl

theorem exec_reset (s : State) : exec .reset s = .next (operation whenNotHalted resetDisplay s) := rfl

theorem exec_init (s : State) :
    exec .init s = .next (operation whenUninit (initDisplay Config.initSeq) s) := rfl

theorem exec_clear (s : State) : exec .clear s = .next (operation whenReady clearDisplay s) := rfl

theorem exec_showFrame (s : State) : exec .showFrame s = .next (operation whenReady showBuffer s) := rfl

theorem exec_pack (s : State) : exec .pack s = .next (operation whenNotHalted packBitmap s) := rfl

theorem exec_setPage (page : Nat) (s : State) :
    exec (.setPage page) s = .next (sequencerByte (pageSelect page) s) := rfl

theorem exec_setColLo (s : State) : exec .setColLo s = .next (sequencerByte colLow s) := rfl

theorem exec_setColHi (s : State) : exec .setColHi s = .next (sequencerByte colHigh s) := rfl

/-- PACK of the native shape answers a next state: the packed buffer, and FBLEN 1024. -/
theorem exec_pack_native {s : State} (h : s.ds ≠ .halt) (hw : s.bmw = 128) (hh : s.bmh = 64) :
    exec .pack s =
      .next { s with fb := packNative (pix s), fblen := 1024, ret := false, sp := 0 } := by
  rw [exec_pack, operation_of_permitted h (whenNotHalted_of_ne_halt h)]
  have hp : pix { s with sp := 0 } = pix s := rfl
  rw [packBitmap, if_pos ⟨hw, hh⟩, hp]
  generalize packNative (pix s) = fb
  rfl

/-- PACK of the rotated shape answers a next state: the packed buffer, and FBLEN 1024. -/
theorem exec_pack_rotated {s : State} (h : s.ds ≠ .halt) (hw : s.bmw = 64) (hh : s.bmh = 128) :
    exec .pack s =
      .next { s with fb := packRotated (pix s), fblen := 1024, ret := false, sp := 0 } := by
  rw [exec_pack, operation_of_permitted h (whenNotHalted_of_ne_halt h)]
  have hp : pix { s with sp := 0 } = pix s := rfl
  have hn : ¬(s.bmw = 128 ∧ s.bmh = 64) := fun hc => absurd (hw.symm.trans hc.1) (by decide)
  rw [packBitmap, if_neg hn, if_pos ⟨hw, hh⟩, hp]
  generalize packRotated (pix s) = fb
  rfl

end Sys2Proof.Machine
end

