-- ==== Sys2Proof/Laws/PerInstr.lean ====
section
/-! SUPPORT. Every well-formed instruction is encoded as its row of spec/opcode_table.json says: in the row's
format, and under the row's mask equal to the row's match. -/

namespace Sys2Proof.Laws.EncodesItsRow

/-- A row of the table: a word in its format, under a mask, is a match. -/
inductive Row where
  /-- Format HOST16. -/
  | host16 (matched mask : Word)
  /-- Format CTRL8. -/
  | ctrl8 (matched mask : Byte)
  deriving DecidableEq, Repr

/-- The row of each instruction. -/
def rowOf : Instr → Row
  | .cmd _ => .host16 0x0100 0xFF00
  | .data _ => .host16 0x0200 0xFF00
  | .reset => .host16 0x0300 0xFFFF
  | .init => .host16 0x0400 0xFFFF
  | .clear => .host16 0x0500 0xFFFF
  | .showFrame => .host16 0x0600 0xFFFF
  | .pack => .host16 0x0700 0xFFFF
  | .setPage _ => .ctrl8 0xB0 0xF8
  | .setColLo => .ctrl8 0x02 0xFF
  | .setColHi => .ctrl8 0x10 0xFF

/-- Is the word one of the row's? -/
def Row.holds : Row → InstrWord → Bool
  | .host16 matched mask, .host16 w => w &&& mask == matched
  | .host16 _ _, .ctrl8 _ => false
  | .ctrl8 _ _, .host16 _ => false
  | .ctrl8 matched mask, .ctrl8 b => b &&& mask == matched

/-- A well-formed instruction's own word is one of its row. -/
def Statement (i : Instr) : Prop := i.wellFormed = true → (rowOf i).holds (encode i) = true

theorem cmd (imm8 : Byte) : Statement (.cmd imm8) := fun _ => by revert imm8; decide

theorem data (imm8 : Byte) : Statement (.data imm8) := fun _ => by revert imm8; decide

theorem reset : Statement .reset := fun _ => by decide

theorem init : Statement .init := fun _ => by decide

theorem clear : Statement .clear := fun _ => by decide

theorem showFrame : Statement .showFrame := fun _ => by decide

theorem pack : Statement .pack := fun _ => by decide

theorem setPage (page : Nat) : Statement (.setPage page) := fun h => by
  have key : ∀ p < 8, (rowOf (.setPage p)).holds (encode (.setPage p)) = true := by decide
  exact key page (by simpa [Instr.wellFormed] using h)

theorem setColLo : Statement .setColLo := fun _ => by decide

theorem setColHi : Statement .setColHi := fun _ => by decide

end Sys2Proof.Laws.EncodesItsRow
end

