-- ==== Sys2Proof/Laws/Step.lean ====
section
/-! SUPPORT. Everything a step can do: which input it takes, and what that input does. -/

namespace Sys2Proof.Machine

theorem step_of_no_input {s : State} (h : s.inputs = []) : step s = .next s := by
  simp [step, takeNext, h]

theorem step_of_input {s : State} {x : Input} {rest : List Input} (h : s.inputs = x :: rest) :
    step s = takeInput x { s with inputs := rest } := by simp [step, takeNext, h]

/-- A word written to OP: a legal one runs, an illegal one takes the fault. -/
theorem writeOp_of_decodes {w : Word} {i : Instr} (h : decode (.host16 w) = .ok i) (s : State) :
    writeOp w s = exec i s := by simp [writeOp, h]

theorem writeOp_of_illegal {w : Word} {e : DecodeError} (h : decode (.host16 w) = .error e) (s : State) :
    writeOp w s = .next (illegalWord s) := by simp [writeOp, h]

/-- What a host move that answers a next state has done. -/
theorem hostMove_cases {m : HostMove} {s t : State} (h : hostMove m s = .next t) :
    (∃ r, t = s.reply r) ∨
    (∃ w, m = .writeReg 0 w ∧ writeOp w s = .next t) ∨
    (∃ n v, n ≠ 0 ∧ m = .writeReg n v ∧ t = writeReg s n v) ∨
    (∃ a v, a < Config.fbSize ∧ m = .writeFB a v ∧ t = { s with fb := Memory.write s.fb a v }) ∨
    (∃ n p, n < Config.bmSize ∧ t = { s with bm := Memory.write s.bm n p }) := by
  cases m with
  | readReg n => cases h; exact .inl ⟨_, rfl⟩
  | writeReg n v =>
    by_cases hn : n = 0
    · subst hn
      exact .inr (.inl ⟨v, rfl, by simpa [hostMove] using h⟩)
    · rw [hostMove, if_neg hn] at h
      cases h
      exact .inr (.inr (.inl ⟨n, v, hn, rfl, rfl⟩))
  | readFB a =>
    simp only [hostMove] at h
    split at h <;> cases h
    exact .inl ⟨_, rfl⟩
  | writeFB a v =>
    simp only [hostMove] at h
    split at h <;> cases h
    exact .inr (.inr (.inr (.inl ⟨a, v, by assumption, rfl, rfl⟩)))
  | readPixel x y =>
    simp only [hostMove] at h
    split at h <;> cases h
    exact .inl ⟨_, rfl⟩
  | writePixel x y p =>
    simp only [hostMove] at h
    split at h <;> cases h
    rename_i hp
    simp only [hasPixel, Bool.and_eq_true, decide_eq_true_eq] at hp
    exact .inr (.inr (.inr (.inr ⟨pixelCell s x y, p, hp.2, rfl⟩)))
  | readCell n =>
    simp only [hostMove] at h
    split at h <;> cases h
    exact .inl ⟨_, rfl⟩
  | writeCell n p =>
    simp only [hostMove] at h
    split at h <;> cases h
    exact .inr (.inr (.inr (.inr ⟨n, p, by assumption, rfl⟩)))

/-- Every way a step answers a next state: nothing to do, an instruction run, an illegal word, a host read,
a host register write, or a host memory write. -/
theorem step_cases {s t : State} (h : step s = .next t) :
    (s.inputs = [] ∧ t = s) ∨
    ∃ x rest, s.inputs = x :: rest ∧
      ((∃ i, exec i { s with inputs := rest } = .next t) ∨
       t = illegalWord { s with inputs := rest } ∨
       (∃ r, t = State.reply { s with inputs := rest } r) ∨
       (∃ n v, t = writeReg { s with inputs := rest } n v) ∨
       (∃ a v, a < Config.fbSize ∧ t = { s with inputs := rest, fb := Memory.write s.fb a v }) ∨
       (∃ n p, n < Config.bmSize ∧ t = { s with inputs := rest, bm := Memory.write s.bm n p })) := by
  cases hi : s.inputs with
  | nil =>
    rw [step_of_no_input hi] at h
    cases h
    exact .inl ⟨rfl, rfl⟩
  | cons x rest =>
    rw [step_of_input hi] at h
    refine .inr ⟨x, rest, rfl, ?_⟩
    cases x with
    | ctrl8 b =>
      simp only [takeInput, sequencerInput] at h
      split at h
      · exact .inl ⟨_, h⟩
      · cases h
    | host m =>
      obtain ⟨r, rfl⟩ | ⟨w, rfl, hw⟩ | ⟨n, v, _, rfl, rfl⟩ | ⟨a, v, ha, rfl, rfl⟩ | ⟨n, p, hn, rfl⟩ :=
        hostMove_cases h
      · exact .inr (.inr (.inl ⟨r, rfl⟩))
      · simp only [writeOp] at hw
        split at hw
        · exact .inl ⟨_, hw⟩
        · cases hw
          exact .inr (.inl rfl)
      · exact .inr (.inr (.inr (.inl ⟨n, v, rfl⟩)))
      · exact .inr (.inr (.inr (.inr (.inl ⟨a, v, ha, rfl⟩))))
      · exact .inr (.inr (.inr (.inr (.inr ⟨n, p, hn, rfl⟩))))

end Sys2Proof.Machine
end

