-- ==== Sys2Proof/Tests/Slice0.lean ====
section
/-! SUPPORT. Tests. The expected results are those of 95_test_vectors.md, named in each comment (S, E, T, V, P, F),
or are read from the rule named; words are written out from the encodings of 30_encoding.md R80 to R86. The second
half gives, for every statement of Certificates/Slice0/Obligations.lean that has hypotheses, a state and operands that
meet them. -/

namespace Sys2Proof.Tests

open Sys2Proof.Machine

/-- A small state with every field written out, in UNINIT. -/
def base : State where
  sp := 0
  ds := .uninit
  ret := false
  fault := .none
  fblen := 0
  bmw := 0
  bmh := 0
  transport := .spi
  fb := []
  bm := []
  pinRst := .low
  pinDc := .low
  pinCs := .low
  pinBl := .low
  trace := []
  inputs := []
  replies := []
  initOracle := ⟨[], 0⟩
  busOracle := ⟨[], 0⟩

/-- READY on a transport, with these answers queued for the next transfers. -/
def readyOn (t : Transport) (answers : List Bool) : State :=
  { base with ds := .ready, transport := t, fblen := 1024, busOracle := ⟨answers, 0⟩ }

/-- READY with the native shape set and the next `n` transfers succeeding. -/
def nativeReady (n : Nat) : State := { readyOn .spi (List.replicate n true) with bmw := 128, bmh := 64 }

/-- READY with the next `n` transfers succeeding and the one after them failing. -/
def failingAt (n : Nat) : State := readyOn .spi (List.replicate n true ++ [false])

/-- Halted by `SEQ` (F5). -/
def halted : State := raise .seq base

/-- UNINIT with `init_ok` answered as `ok` and these answers queued for the transfers. -/
def initWith (ok : Bool) (answers : List Bool) : State :=
  { base with initOracle := ⟨[ok], 0⟩, busOracle := ⟨answers, 0⟩ }

/-- A bitmap with ink at the given pixels and background elsewhere. -/
def inkAt (pixels : List (Nat × Nat)) (x y : Nat) : Pixel := if (x, y) ∈ pixels then .ink else .background

/-- The state an outcome goes on in. -/
def after (o : Host.Outcome State Fault Refusal) : Option State :=
  match o with
  | .next s => some s
  | .fault _ => none
  | .refused _ => none

/-- The trace and STATUS an outcome goes on with, and `pin[DC]`. -/
def seen (o : Host.Outcome State Fault Refusal) : Option (List Event × Word × Level) :=
  (after o).map fun s => (s.trace, statusWord s, s.pinDc)

/-- Does the outcome go on in a state that passes the test? -/
def goesOn (o : Host.Outcome State Fault Refusal) (test : State → Bool) : Bool :=
  match o with
  | .next s => test s
  | .fault _ => false
  | .refused _ => false

/-! ### Well-formedness -/

/-- R86: a page is `0..7`; 8 is refused, and `0xB8` decodes to nothing. -/
theorem test_wellFormed_page : (Instr.setPage 0).wellFormed = true ∧ (Instr.setPage 7).wellFormed = true ∧
    (Instr.setPage 8).wellFormed = false ∧ (Instr.setPage 255).wellFormed = false ∧
    decodeTableWord 8 0xB8 = none := by decide

/-! ### Decoding, each word written out bit by bit -/

/-- E1, E2. -/
theorem test_decode_cmd : decodeTableWord 16 0b0000000110101111 = some (.cmd 0xAF) ∧
    decodeTableWord 16 0b0000000100000000 = some (.cmd 0x00) := by decide

/-- E3, and T2's word. -/
theorem test_decode_data : decodeTableWord 16 0b0000001011111111 = some (.data 0xFF) ∧
    decodeTableWord 16 0b0000001010000001 = some (.data 0x81) := by decide

/-- E4, E12. -/
theorem test_decode_reset : decodeTableWord 16 0b0000001100000000 = some .reset ∧
    decodeTableWord 16 0b0000001100000001 = none := by decide

/-- E5; R83 with a nonzero imm8. -/
theorem test_decode_init : decodeTableWord 16 0b0000010000000000 = some .init ∧
    decodeTableWord 16 0b0000010010000000 = none := by decide

/-- E6; R83 with a nonzero imm8. -/
theorem test_decode_clear : decodeTableWord 16 0b0000010100000000 = some .clear ∧
    decodeTableWord 16 0b0000010100010000 = none := by decide

/-- E7; R83 with a nonzero imm8. -/
theorem test_decode_show : decodeTableWord 16 0b0000011000000000 = some .showFrame ∧
    decodeTableWord 16 0b0000011000000010 = none := by decide

/-- E8, E13. -/
theorem test_decode_pack : decodeTableWord 16 0b0000011100000000 = some .pack ∧
    decodeTableWord 16 0b0000011111111111 = none := by decide

/-- E9, E10, E11, E14: each refused for its own reason. -/
theorem test_decode_illegal :
    decode (.host16 0x0000) = .error (.noSuchOpcode 0x00) ∧
    decode (.host16 0x0800) = .error (.noSuchOpcode 0x08) ∧
    decode (.host16 0xFFFF) = .error (.noSuchOpcode 0xFF) ∧
    decode (.host16 0x00AF) = .error (.noSuchOpcode 0x00) ∧
    decode (.host16 0x0301) = .error (.immediateNotZero 0x03 0x01) := by decide

/-- R86: `0xB0`, `0xB5`, `0xB7`; the bytes next to the ten are none of them. -/
theorem test_decode_setPage : decodeTableWord 8 0b10110000 = some (.setPage 0) ∧
    decodeTableWord 8 0b10110101 = some (.setPage 5) ∧ decodeTableWord 8 0b10110111 = some (.setPage 7) ∧
    decodeTableWord 8 0b10101111 = none := by decide

/-- R86. -/
theorem test_decode_columns : decodeTableWord 8 0b00000010 = some .setColLo ∧
    decodeTableWord 8 0b00010000 = some .setColHi ∧ decodeTableWord 8 0b00000011 = none ∧
    decodeTableWord 8 0b00010001 = none := by decide

/-! ### One instruction -/

/-- T1, T3. -/
theorem test_cmd : seen (exec (.cmd 0xAF) (readyOn .spi [true])) = some ([.spiWr .low 0xAF], 0x0001, .low) ∧
    seen (exec (.cmd 0xAF) { readyOn .i2c [true] with pinDc := .high }) =
      some ([.i2cWr 0x00 0xAF], 0x0001, .high) := by decide

/-- T7, T8. -/
theorem test_cmd_faults : seen (exec (.cmd 0xAF) { base with pinDc := .high }) = some ([], 0x0026, .high) ∧
    seen (exec (.cmd 0xAF) { readyOn .spi [false] with pinDc := .high }) = some ([.busFail], 0x0056, .low) := by
  decide

/-- T2, T4. -/
theorem test_data : seen (exec (.data 0x81) (readyOn .spi [true])) = some ([.spiWr .high 0x81], 0x0001, .high) ∧
    seen (exec (.data 0x81) (readyOn .i2c [true])) = some ([.i2cWr 0x40 0x81], 0x0001, .low) := by decide

/-- T9. -/
theorem test_data_fails : seen (exec (.data 0x81) (readyOn .i2c [false])) = some ([.busFail], 0x0056, .low) := by
  decide

/-- V1, V2: the same six events, and UNINIT after. -/
theorem test_reset : (after (exec .reset (readyOn .spi []))).map (fun s => (s.trace, statusWord s, s.pinRst)) =
    some ([.pinRst .high, .wait 100, .pinRst .low, .wait 100, .pinRst .high, .wait 100], 0x0000, .high) := by decide

/-- V3, with the stand-in sequence `[0xAE, 0xAF]`. -/
theorem test_init : seen (.next (operation whenUninit (initDisplay [0xAE, 0xAF]) (initWith true [true, true]))) =
    some ([.pinRst .high, .wait 100, .pinRst .low, .wait 100, .pinRst .high, .wait 100, .spiWr .low 0xAE,
      .spiWr .low 0xAF], 0x0001, .low) := by decide

/-- V5, V7. -/
theorem test_init_fails :
    seen (.next (operation whenUninit (initDisplay [0xAE, 0xAF]) (initWith false []))) = some ([], 0x0004, .low) ∧
    seen (.next (operation whenUninit (initDisplay [0xAE, 0xAF]) (initWith true [true, false]))) =
      some ([.pinRst .high, .wait 100, .pinRst .low, .wait 100, .pinRst .high, .wait 100, .spiWr .low 0xAE,
        .busFail], 0x0056, .low) := by decide

/-- V15, and F3: SEQ comes before LENGTH. -/
theorem test_clear_and_show_in_uninit : seen (exec .clear base) = some ([], 0x0026, .low) ∧
    seen (exec .showFrame base) = some ([], 0x0026, .low) := by decide

/-- V14 up to the first failure: FB is blank and FBLEN 1024 when the fourth transfer fails. -/
theorem test_clear : goesOn (exec .clear { failingAt 3 with fblen := 7 }) (fun s =>
    s.trace == [.spiWr .low 0xB0, .spiWr .low 0x02, .spiWr .low 0x10, .busFail] && s.fblen == 1024 &&
      fbByte s.fb 0 == 0xFF && fbByte s.fb 1023 == 0xFF) = true := by
  decide +kernel

/-- V10, page 1: `FB[128] = 0x80` goes out as `0x7F`, after the three commands. -/
theorem test_show : (after (.next (sendPage 1 { failingAt 4 with transport := .i2c, fb := [(128, 0x80)] }).close)).map
    (fun s => s.trace) = some [.i2cWr 0x00 0xB1, .i2cWr 0x00 0x02, .i2cWr 0x00 0x10, .i2cWr 0x40 0x7F, .busFail] := by
  decide +kernel

/-- V16. -/
theorem test_show_length : [0, 1023, 1025, 65535].all (fun n =>
    seen (exec .showFrame { readyOn .spi [] with fblen := n }) == some ([], 0x0036, .low)) = true := by
  decide +kernel

/-- P3: a page boundary. -/
theorem test_pack_native : ([0, 1, 127, 128, 129].map (fbByte (packNative (inkAt [(0, 7), (0, 8)])))) =
    [0x7F, 0xFF, 0xFF, 0xFE, 0xFF] := by decide +kernel

/-- P10 and P7: the page is that of `63 - x`, the bit that of `y`. -/
theorem test_pack_rotated : ([127, 768, 896, 897].map
    (fbByte (packRotated (inkAt [(7, 0), (8, 0), (63, 127)])))) = [0x7F, 0xFE, 0xFE, 0xFF] := by decide +kernel

/-- P18. -/
theorem test_pack_shape : [(0, 0), (64, 64), (128, 128), (127, 64), (128, 65), (256, 32), (64, 129)].all
    (fun wh => goesOn (exec .pack { base with bmw := wh.1, bmh := wh.2 }) (fun s =>
      statusWord s == 0x0046 && s.fb == [] && s.fblen == 0)) = true := by
  decide +kernel

/-- R86, R134: page 3's select byte. -/
theorem test_setPage : seen (exec (.setPage 3) (readyOn .i2c [true])) = some ([.i2cWr 0x00 0xB3], 0x0001, .low) := by
  decide

/-- R86, R134: the two column bytes. -/
theorem test_columns : seen (exec .setColLo (readyOn .spi [true])) = some ([.spiWr .low 0x02], 0x0001, .low) ∧
    seen (exec .setColHi (readyOn .spi [true])) = some ([.spiWr .low 0x10], 0x0001, .low) := by decide

/-! ### Host moves and the step -/

/-- F1, F2, F4. -/
theorem test_illegal_word : seen (hostMove (.writeReg 0 0x0800) base) = some ([], 0x0016, .low) ∧
    seen (hostMove (.writeReg 0 0x0301) (readyOn .spi [])) = some ([], 0x0016, .low) ∧
    seen (hostMove (.writeReg 0 0x0000) base) = some ([], 0x0016, .low) := by decide

/-- F5. -/
theorem test_halt_refuses : [0x0400, 0x0300, 0x0700, 0xFFFF].all (fun w =>
    seen (hostMove (.writeReg 0 w) halted) == some ([], 0x0026, .low)) = true := by
  decide +kernel

/-- F6: what was written reads back, although halted. -/
theorem test_halt_access :
    (after (hostMove (.readFB 0) { halted with fb := Memory.write halted.fb 0 0x12 })).map (fun s => s.replies) =
      some [.byte 0x12] ∧
    (after (hostMove (.writeReg 2 1024) halted)).map (fun s => (readReg s 2, readReg s 1)) =
      some (1024, 0x0026) := by decide

/-- A host word as the first input after reset runs its operation (R28); a CTRL8 byte runs alone. -/
theorem test_withFetchWord : step (State.reset.withFetchWord 16 0x0300) = exec .reset State.reset ∧
    step (State.reset.withFetchWord 16 0x01AF) = exec (.cmd 0xAF) State.reset ∧
    step (State.reset.withFetchWord 8 0xB3) = exec (.setPage 3) State.reset := ⟨rfl, rfl, rfl⟩

/-- The BCM numbers and the device address of R7, R8. -/
theorem test_pins : levelAtBcm { base with pinRst := .high } 25 = some .high ∧ levelAtBcm base 24 = some .low ∧
    levelAtBcm base 8 = some .low ∧ levelAtBcm base 18 = some .low ∧ levelAtBcm base 17 = none ∧
    Event.device (.i2cWr 0x00 0xAF) = some 0x3C := by decide

/-- R215: a level of the reset line must be followed by its 100 ms. -/
theorem test_settled : settled resetPulse = true ∧ settled [.pinRst .low, .wait 0, .pinRst .high, .wait 100] = false ∧
    settled [.pinRst .high, .spiWr .low 0xAE] = false := by decide

/-- R10: HOST_MAP places a pixel where it places its cell, and CS_FRAMING is about SPI bytes alone. -/
theorem test_open_parameters :
    hostPlace (nativeReady 0) (.readPixel 5 10) = hostPlace (nativeReady 0) (.readCell 1285) ∧
    Event.chipSelect (.spiWr .low 0xAE) = some Config.csFraming ∧ Event.chipSelect (.i2cWr 0x00 0xAE) = none :=
  ⟨rfl, rfl, rfl⟩

/-- `DISPLAY` and `SHAPE` of R90 as host moves. -/
theorem test_host_programs :
    displayFrame = [.host (.writeReg 0 0x0700), .host (.writeReg 0 0x0600)] ∧
    shapeNative = [.host (.writeReg 3 128), .host (.writeReg 4 64)] ∧
    shapeRotated = [.host (.writeReg 3 64), .host (.writeReg 4 128)] ∧
    fillBitmap 2 1 .background =
      [.host (.writePixel 0 0 .background), .host (.writePixel 1 0 .background)] := by decide

/-! ### Witnesses: the hypotheses of the statements are met -/

theorem transfersOk_of_queued {s : State} {n : Nat} (h : s.busOracle.queued = List.replicate n true) :
    TransfersOk s n := fun k hk => by simp [State.transferOk, Oracle.answer, h, hk]

theorem failsAt_of_queued {s : State} {n : Nat} (h : s.busOracle.queued = List.replicate n true ++ [false]) :
    TransferFailsAt s n :=
  ⟨fun k hk => by simp [State.transferOk, Oracle.answer, h, hk, List.getElem?_append_left],
    by simp [State.transferOk, Oracle.answer, h]⟩

theorem base_inv : base.Inv where
  halt_iff_fault := by decide
  ret_of_halt := by decide
  sp_zero := rfl
  fb_wf := rfl
  bm_wf := rfl
  busFail_last := by decide
  busFail_iff := by decide

/-- A state with these inputs meets the invariant if it does with none. -/
theorem inv_with_inputs {s : State} (h : s.Inv) (l : List Input) : State.Inv { s with inputs := l } :=
  ⟨h.1, h.2, h.3, h.4, h.5, h.6, h.7⟩

theorem witness_DecodeOfEncodeIsTheInstruction : [Instr.cmd 0x00, .cmd 0xFF, .data 0x00, .data 0xFF, .reset, .init,
    .clear, .showFrame, .pack, .setPage 0, .setPage 7, .setColLo, .setColHi].all Instr.wellFormed = true := by decide

theorem witness_EncodeOfDecodeIsTheWord : decode (.host16 0x01FF) = .ok (.cmd 0xFF) ∧
    decode (.host16 0x0700) = .ok .pack ∧ decode (.ctrl8 0xB0) = .ok (.setPage 0) ∧
    decode (.ctrl8 0xB7) = .ok (.setPage 7) := by decide

/-- Illegal and legal words at the boundaries of R83's ranges. -/
theorem witness_IllegalHostWordsFault : base.ds ≠ .halt ∧ (readyOn .spi []).ds ≠ .halt ∧
    (decode (.host16 0x00FF)).isOk = false ∧ (decode (.host16 0x0100)).isOk = true ∧
    (decode (.host16 0x02FF)).isOk = true ∧ (decode (.host16 0x0300)).isOk = true ∧
    (decode (.host16 0x0301)).isOk = false ∧ (decode (.host16 0x07FF)).isOk = false ∧
    (decode (.host16 0x0700)).isOk = true ∧ (decode (.host16 0x0800)).isOk = false := by decide

/-- Also for ControllerBytesDecodeByTheirMasks. -/
theorem witness_ControllerBytesAreTheOnesShowPagesSends : (0 : Nat) < 8 ∧ (7 : Nat) < 8 ∧
    decode (.ctrl8 0xB7) = .ok (.setPage 7) ∧ decode (.ctrl8 0x02) = .ok .setColLo ∧
    encode (.setPage 7) = .ctrl8 0xB7 ∧ TransfersOk (nativeReady 131) 131 ∧ TransfersOk (nativeReady 1048) 1048 :=
  ⟨by decide, by decide, by decide, by decide, by decide, transfersOk_of_queued rfl, transfersOk_of_queued rfl⟩

theorem witness_StepRunsTheDecodedInstruction :
    State.inputs { base with inputs := [.host (.writeReg 0 0x0700)] } = .host (.writeReg 0 0x0700) :: [] ∧
    decode (.host16 0x0700) = .ok .pack ∧
    State.inputs { base with inputs := [.ctrl8 0xB3] } = .ctrl8 0xB3 :: [] ∧
    decode (.ctrl8 0xB3) = .ok (.setPage 3) ∧ base.inputs = [] ∧
    decodeTableWord 16 0x0700 = some .pack ∧ decodeTableWord 8 0xB3 = some (.setPage 3) := by decide

/-- One step that runs RESET from a state meeting every invariant: for StepKeepsTheInvariant,
StepKeepsTheTransportsOwnEvents, StepKeepsTheSettleTimes, StepOnlyAppendsToTheTrace and
StepDrivesOnlyItsOwnPins (RST rises). -/
theorem witness_step : ∃ s t : State, s.Inv ∧ s.TraceFits ∧ settled s.trace = true ∧ step s = .next t ∧
    t.trace = resetPulse ∧ t.pinRst ≠ s.pinRst := by
  refine ⟨{ base with inputs := [issue .reset] }, _, inv_with_inputs base_inv _, ?_, rfl, rfl, rfl, by decide⟩
  intro e he
  cases he

/-- StepDrivesOnlyItsOwnPins on I2C, where a data byte goes out and DC stays. -/
theorem witness_StepDrivesOnlyItsOwnPins_i2c : ∃ s t : State, s.transport = .i2c ∧ step s = .next t ∧
    t.trace = [.i2cWr 0x40 0x81] :=
  ⟨{ readyOn .i2c [true] with inputs := [issue (.data 0x81)] }, _, rfl, rfl, rfl⟩

/-- UNINIT in which the next INIT succeeds, whatever `INIT_SEQ` is. -/
def initSucceeds : State := initWith true (List.replicate Config.initSeq.length true)

theorem witness_InitPulsesAndSendsItsSequence : initSucceeds.ds = .uninit ∧ initSucceeds.initOk = true ∧
    TransfersOk initSucceeds Config.initSeq.length := ⟨rfl, rfl, transfersOk_of_queued rfl⟩

/-- LifecycleMovesOnlyAsItsTableSays: UNINIT to READY by INIT, and INIT that ends outside HALT. -/
theorem witness_lifecycle_init : ∃ t, exec .init initSucceeds = .next t ∧ initSucceeds.ds = .uninit ∧
    t.ds = .ready := by
  refine ⟨_, exec_init initSucceeds, rfl, ?_⟩
  rw [operation_of_permitted (by decide) rfl]
  obtain ⟨h, _⟩ | ⟨_, _, h⟩ | ⟨_, n, hn, h, _⟩ := initDisplay_cases Config.initSeq { initSucceeds with sp := 0 }
  · cases h
  · rw [h]; rfl
  · exact absurd (transfersOk_of_queued rfl) (h.not_ok (by simpa using hn))

/-- LifecycleMovesOnlyAsItsTableSays: READY to UNINIT by RESET, READY to HALT, UNINIT to HALT by a fault, HALT to
HALT. -/
theorem witness_LifecycleMovesOnlyAsItsTableSays :
    (∃ t, step { readyOn .spi [] with inputs := [issue .reset] } = .next t ∧ t.ds = .uninit) ∧
    (∃ t, step { readyOn .spi [] with inputs := [issue .init] } = .next t ∧ t.ds = .halt) ∧
    (∃ t, step { base with inputs := [issue (.cmd 0xAF)] } = .next t ∧ t.ds = .halt) ∧
    (∃ t, step { halted with inputs := [issue .reset] } = .next t ∧ t.ds = .halt) ∧
    (∃ t, exec (.cmd 0xAF) (readyOn .spi [true]) = .next t ∧ t.ds = .ready) ∧
    ∃ t, hostMove (.writeReg 2 7) base = .next t ∧ t.ds = .uninit :=
  ⟨⟨_, rfl, rfl⟩, ⟨_, rfl, rfl⟩, ⟨_, rfl, rfl⟩, ⟨_, rfl, rfl⟩, ⟨_, rfl, rfl⟩, ⟨_, rfl, rfl⟩⟩

/-- ASafeRunIsSafeAtEveryStep: a run that writes FBLEN and then pulses the reset line. -/
theorem witness_ASafeRunIsSafeAtEveryStep : State.Inv { base with inputs := [setReg 2 7, issue .reset] } ∧ 1 ≤ 2 ∧
    SafeRun { base with inputs := [setReg 2 7, issue .reset] } 2 :=
  ⟨inv_with_inputs base_inv _, by decide, _, rfl, rfl⟩

theorem witness_HaltAbsorbs : halted.ds = .halt ∧ halted.Inv ∧
    (∃ t, step { halted with inputs := [issue .pack] } = .next t) ∧ (0 : Nat) < 1024 ∧ (1023 : Nat) < 1024 ∧
    (0 : Nat) < 8192 ∧ (8191 : Nat) < 8192 :=
  ⟨rfl, ⟨by decide, by decide, rfl, rfl, rfl, by decide, by decide⟩, ⟨_, rfl⟩, by decide, by decide, by decide, by decide⟩

theorem witness_OperationsOutOfOrderFault : base.ds = .uninit ∧ (readyOn .spi []).ds = .ready ∧ halted.ds = .halt ∧
    (readyOn .spi [true]).fault = .none ∧ (∃ t, exec (.cmd 0xAF) (readyOn .spi [true]) = .next t) ∧
    base.fault = .none ∧ ∃ t, exec .reset base = .next t :=
  ⟨rfl, rfl, rfl, rfl, ⟨_, rfl⟩, rfl, ⟨_, rfl⟩⟩

theorem witness_OperationFrameOrder : halted.ds = .halt ∧ base.ds ≠ .halt ∧
    decode (.host16 0x0800) = .error (.noSuchOpcode 0x08) ∧ decode (.host16 0x01AF) = .ok (.cmd 0xAF) ∧
    whenReady base.ds = false ∧ whenNotHalted base.ds = true ∧
    (∃ t, resetDisplay { base with sp := 0 } = .running t) ∧
    ∃ t, packBitmap { base with sp := 0 } = .ended t :=
  ⟨rfl, by decide, by decide, by decide, rfl, rfl, ⟨_, rfl⟩, ⟨raise .shape base, by decide +kernel⟩⟩

/-- TransportPrimitivesSendOneByte, FailedTransferFaults, CmdSendsOneCommandByte, DataSendsOneDataByte. -/
theorem witness_transfers : (readyOn .spi [true]).transferOk 0 = true ∧ (readyOn .spi [true]).transport = .spi ∧
    (readyOn .i2c [true]).transferOk 0 = true ∧ (readyOn .i2c [true]).transport = .i2c ∧
    (readyOn .spi [false]).transferOk 0 = false ∧ (readyOn .spi [false]).ds = .ready ∧
    (readyOn .spi [true]).ds = .ready ∧ base.ds = .uninit ∧ halted.ds = .halt :=
  ⟨rfl, rfl, rfl, rfl, rfl, rfl, rfl, rfl, rfl⟩

theorem witness_ControllerByteIsSentAsACommand :
    (∃ page, page < 8 ∧ Instr.setPage 7 = .setPage page ∧ (0xB7 : Byte) = 0xB0 + BitVec.ofNat 8 page) ∧
    (∃ page, page < 8 ∧ Instr.setPage 0 = .setPage page ∧ (0xB0 : Byte) = 0xB0 + BitVec.ofNat 8 page) ∧
    (readyOn .spi [true]).ds ≠ .halt ∧ (readyOn .spi [true]).transferOk 0 = true ∧
    (readyOn .spi [false]).ds ≠ .halt ∧ (readyOn .spi [false]).transferOk 0 = false ∧ halted.ds = .halt :=
  ⟨⟨7, by decide, rfl, by decide⟩, ⟨0, by decide, rfl, by decide⟩, by decide, rfl, by decide, rfl, rfl⟩

theorem witness_ResetPulsesAndLeavesUninit : base.ds ≠ .halt ∧ (readyOn .i2c []).ds ≠ .halt ∧ halted.ds = .halt := by
  decide

/-- EveryOperationEndsInOneOutcome, each of the three outcomes: OK, FAIL and FAULT. -/
theorem witness_EveryOperationEndsInOneOutcome : base.ds ≠ .halt ∧ base.fault = .none ∧
    (∃ t, exec .reset base = .next t ∧ t.ret = false) ∧ (initWith false []).ds = .uninit ∧
    (initWith false []).initOk = false ∧ (initWith false []).fault = .none ∧
    (∃ t, exec .init (initWith false []) = .next t) ∧ ∃ t, exec .clear base = .next t ∧ t.ds = .halt :=
  ⟨by decide, rfl, ⟨_, rfl, rfl⟩, rfl, rfl, rfl, ⟨_, exec_init _⟩, ⟨_, rfl, rfl⟩⟩

/-- InitPulsesAndSendsItsSequence, its other clauses: the stand-in sequence with every transfer succeeding, with the
first and with the last failing, `init_ok` false, and READY. -/
theorem witness_InitPulsesAndSendsItsSequence_clauses :
    (initWith true [true, true]).initOk = true ∧ TransfersOk (initWith true [true, true]) 2 ∧
    (initWith false []).initOk = false ∧ (readyOn .spi []).ds = .ready ∧
    (0 < [(0xAE : Byte), 0xAF].length ∧ (initWith true [false]).initOk = true ∧
      TransferFailsAt (initWith true [false]) 0) ∧
    (1 < [(0xAE : Byte), 0xAF].length ∧ (initWith true [true, false]).initOk = true ∧
      TransferFailsAt (initWith true [true, false]) 1) ∧ (initWith true []).ds = .uninit :=
  ⟨rfl, transfersOk_of_queued rfl, rfl, rfl, ⟨by decide, rfl, failsAt_of_queued rfl⟩, ⟨by decide, rfl, failsAt_of_queued rfl⟩, rfl⟩

/-- ShowSendsEveryPage and ClearBlanksAndSends. -/
theorem witness_ShowSendsEveryPage : (nativeReady 1048).ds = .ready ∧ (nativeReady 1048).fblen = 1024 ∧
    TransfersOk (nativeReady 1048) 1048 := ⟨rfl, rfl, transfersOk_of_queued rfl⟩

/-- ShowSendsEveryPage, the LENGTH and SEQ clauses, and the clause of the blank frame. -/
theorem witness_ShowSendsEveryPage_length : State.ds { readyOn .spi [] with fblen := 1023 } = .ready ∧
    (1023 : Word) ≠ 1024 ∧ (1025 : Word) ≠ 1024 ∧ (0 : Word) ≠ 1024 ∧ (65535 : Word) ≠ 1024 ∧
    base.ds = .uninit := by decide

/-- ShowSendsEveryPage and ClearBlanksAndSends: the first and the last transfer failing. -/
theorem witness_ShowSendsEveryPage_fails : (∀ n, (failingAt n).ds = .ready ∧ (failingAt n).fblen = 1024) ∧
    TransferFailsAt (failingAt 0) 0 ∧ TransferFailsAt (failingAt 1047) 1047 ∧ base.ds = .uninit :=
  ⟨fun _ => ⟨rfl, rfl⟩, failsAt_of_queued rfl, failsAt_of_queued rfl, rfl⟩

/-- ShowSendsEveryPage and ClearBlanksAndSends: a blank frame that has a data event; and CLEAR that answers. -/
theorem witness_blank : (∀ a, a < 1024 → fbByte blankFB a = 0xFF) ∧
    dataEvent .spi 0x00 ∈ frameEvents .spi blankFB ∧ base.fault = .none ∧ ∃ t, exec .clear base = .next t := by
  refine ⟨fun a h => fbByte_blankFB h, ?_, rfl, _, exec_clear _⟩
  simp only [frameEvents, pageEvents, List.mem_flatMap, List.mem_range, List.mem_cons, List.mem_map]
  exact ⟨0, by decide, .inr (.inr (.inr ⟨0, by decide, by rw [fbByte_blankFB (by decide)]; rfl⟩))⟩

/-- FrameDiffersOnlyWhereTheBytesDo (and, by its first state, FrameEventAtEachPosition): two READY states on one
transport whose framebuffers differ in the one byte, and otherwise in BM, DC and the trace. -/
theorem witness_FrameDiffersOnlyWhereTheBytesDo : ∀ a ∈ [0, 127, 128, 1023],
    ∃ s s' : State, s.ds = .ready ∧ s'.ds = .ready ∧ s.fblen = 1024 ∧ s'.fblen = 1024 ∧ TransfersOk s 1048 ∧
      TransfersOk s' 1048 ∧ s.transport = s'.transport ∧ a < 1024 ∧ fbByte s.fb a ≠ fbByte s'.fb a ∧
      (∀ c, c < 1024 → c ≠ a → fbByte s.fb c = fbByte s'.fb c) ∧ s.pinDc ≠ s'.pinDc := by
  intro a ha
  refine ⟨{ nativeReady 1048 with fb := [(a, 0x00)] },
    { nativeReady 1048 with fb := [(a, 0x01)], bm := [(0, .ink)], pinDc := .high, trace := [.pinRst .high, .wait 100] },
    rfl, rfl, rfl, rfl, transfersOk_of_queued rfl, transfersOk_of_queued rfl, rfl, ?_,
    by simp [fbByte, Memory.read_cons], fun c _ hc => by simp [fbByte, Memory.read_cons, hc],
    (by decide : Level.low ≠ Level.high)⟩
  revert a
  decide

/-- FrameDiffersOnlyWhereTheBytesDo, the clause of equal framebuffers: states that differ in BM and DC alone. -/
theorem witness_frames_equal : ∃ s s' : State, s.ds = .ready ∧ s'.ds = .ready ∧ s.fblen = 1024 ∧ s'.fblen = 1024 ∧
    TransfersOk s 1048 ∧ TransfersOk s' 1048 ∧ s.transport = s'.transport ∧
    (∀ a, a < 1024 → fbByte s.fb a = fbByte s'.fb a) ∧ s.pinDc ≠ s'.pinDc :=
  ⟨nativeReady 1048, { nativeReady 1048 with bm := [(0, .ink)], pinDc := .high }, rfl, rfl, rfl, rfl,
    transfersOk_of_queued rfl, transfersOk_of_queued rfl, rfl, fun _ _ => rfl, by decide⟩

theorem witness_ShowTwiceRepeatsTheFrame : ∃ s t u : State, s.ds = .ready ∧ s.fblen = 1024 ∧ TransfersOk s 2096 ∧
    exec .showFrame s = .next t ∧ exec .showFrame t = .next u :=
  ⟨nativeReady 2096, _, _, rfl, rfl, transfersOk_of_queued rfl, exec_showFrame _, exec_showFrame _⟩

/-- The native and the rotated shape, in READY and in UNINIT: for PackNativeClearsTheInkBits,
PackRotatedClearsTheInkBits, PackNativeIsABijection and PackRotatedClosedForm. -/
theorem witness_pack : (nativeReady 0).ds ≠ .halt ∧ (nativeReady 0).bmw = 128 ∧ (nativeReady 0).bmh = 64 ∧
    (∃ t, exec .pack (nativeReady 0) = .next t) ∧
    State.ds { base with bmw := 64, bmh := 128 } ≠ .halt ∧
    ∃ t, exec .pack { base with bmw := 64, bmh := 128 } = .next t :=
  ⟨by decide, rfl, rfl, ⟨_, exec_pack _⟩, by decide, ⟨_, exec_pack _⟩⟩

/-- The boundary bytes and bits of the pack statements: `(127, 63)` native is bit 7 of the last byte; `(0, 127)`
rotated too; `(63, 0)` rotated is bit 0 of the first (P2, P12, P11). -/
theorem witness_pack_boundaries : 1023 = 127 + 128 * (63 / 8) ∧ 7 = 63 % 8 ∧
    1023 = 127 + 128 * ((63 - 0) / 8) ∧ 7 = 127 % 8 ∧ 0 = 0 + 128 * ((63 - 63) / 8) ∧
    56 - 8 * 7 ≤ 0 ∧ 0 ≤ 63 - 8 * 7 ∧ 56 - 8 * 0 ≤ 63 ∧ 63 ≤ 63 - 8 * 0 := by decide

theorem witness_PackOfAnotherShapeFaults : base.ds ≠ .halt ∧ ¬(base.bmw = 128 ∧ base.bmh = 64) ∧
    ¬(base.bmw = 64 ∧ base.bmh = 128) ∧
    ((0 : Word), (0 : Word)) ∈ [((0 : Word), (0 : Word)), (128, 128), (64, 64), (127, 64), (256, 32)] := by
  decide

/-- PackDependsOnTheBitmapAlone (its SEQ clause has `base`): two states with other FB, FBLEN and lifecycle but the same bitmap and shape. -/
theorem witness_PackDependsOnTheBitmapAlone : ∃ s s' t t' : State, s.ds ≠ .halt ∧ s'.ds ≠ .halt ∧ s.bm = s'.bm ∧
    s.bmw = s'.bmw ∧ s.bmh = s'.bmh ∧ exec .pack s = .next t ∧ exec .pack s' = .next t' ∧ t.fault = .none ∧
    t'.fault = .none ∧ s.fault = .none ∧ s'.fault = .none ∧ s.fb ≠ s'.fb ∧ s.ds ≠ s'.ds :=
  ⟨nativeReady 0, { base with bmw := 128, bmh := 64, fb := [(0, 0x00)] }, _, _, by decide, by decide, rfl, rfl, rfl,
    exec_pack_native (by decide) rfl rfl, exec_pack_native (by decide) rfl rfl, rfl, rfl, rfl, rfl, by decide,
    by decide⟩

/-- PackScanOrderDoesNotMatter: the pixels backwards, and each twice. -/
theorem witness_PackScanOrderDoesNotMatter : (∀ v, v ∈ (grid 128 64).reverse ↔ v ∈ grid 128 64) ∧
    ∀ v, v ∈ grid 64 128 ++ grid 64 128 ↔ v ∈ grid 64 128 := by simp

/-- READY with an all-ink native bitmap and 1048 transfers succeeding. -/
def allInk : State := { nativeReady 1048 with bm := (List.range' 0 8192).map fun n => (n, Pixel.ink) }

/-- PackThenShowLightsTheInk and PackThenClearIsBlank. -/
theorem witness_PackThenClearIsBlank : allInk.ds = .ready ∧ allInk.bmw = 128 ∧ allInk.bmh = 64 ∧
    TransfersOk allInk 1048 ∧ (∀ x y, x < 128 → y < 64 → pix allInk x y = .ink) ∧
    ∃ t u v w, exec .pack allInk = .next t ∧ exec .clear t = .next u ∧ exec .clear allInk = .next v ∧
      exec .showFrame t = .next w := by
  refine ⟨rfl, rfl, rfl, transfersOk_of_queued rfl, fun x y hx hy => ?_, _, _, _, _, exec_pack _, exec_clear _,
    exec_clear _, exec_showFrame _⟩
  have hw : allInk.bmw.toNat = 128 := by decide
  have hb : allInk.bm = (List.range' 0 8192).map fun n => (n, Pixel.ink) := rfl
  rw [pix, pixelCell, hw, hb, bmCell, read_consecutive, if_pos (by omega)]
  rfl

/-- The frame statements and ExecIgnoresTheHostsQueues: instructions of each shape that answer a next state, those
of FrameOfClearAndPack with SEQ, with SHAPE and with the buffer filled. -/
theorem witness_frames : (∃ t, exec (.cmd 0xAF) (readyOn .i2c [true]) = .next t) ∧
    (∃ t, exec .reset base = .next t) ∧ (∃ t, exec .clear base = .next t ∧ t.fault = .seq ∧ base.fault = .none) ∧
    (∃ t, exec .clear (nativeReady 1048) = .next t) ∧ (nativeReady 1048).ds ≠ .halt ∧
    Memory.wf 1024 (nativeReady 1048).fb = true ∧
    ∃ t, exec .pack (nativeReady 0) = .next t ∧ t.fault ≠ .seq ∧ t.fault ≠ .shape :=
  ⟨⟨_, rfl⟩, ⟨_, rfl⟩, ⟨_, rfl, rfl, rfl⟩, ⟨_, exec_clear _⟩, by decide, rfl,
    ⟨_, exec_pack_native (by decide) rfl rfl, by decide, by decide⟩⟩

/-- HostAccessToTheRegisters: its last clause's word, and a number above 5. -/
theorem witness_HostAccessToTheRegisters : decode (.host16 0x0700) = .ok .pack ∧ 6 ≤ (6 : Nat) := by decide

theorem witness_HostAccessToTheFramebuffer : (0 : Nat) < 1024 ∧ (1023 : Nat) < 1024 ∧ 1024 ≤ (1024 : Nat) ∧
    Memory.wf 1024 base.fb = true := by decide

/-- HostAccessToTheBitmap: the last pixel of the native shape, the first and last cells while no shape is set, the
first column and row beyond the shape, and a pixel of a shape larger than BM. -/
theorem witness_HostAccessToTheBitmap :
    (127 < (nativeReady 0).bmw.toNat ∧ 63 < (nativeReady 0).bmh.toNat ∧
      127 + 63 * (nativeReady 0).bmw.toNat < 8192) ∧
    (base.bmw = 0 ∧ (0 : Nat) < 8192 ∧ (8191 : Nat) < 8192 ∧ Memory.wf 8192 base.bm = true) ∧
    (nativeReady 0).bmw.toNat ≤ 128 ∧ (nativeReady 0).bmh.toNat ≤ 64 ∧
    8192 ≤ 0 + 1 * (8192 : Word).toNat ∧ (8192 : Nat) ≤ 8192 := by decide

end Sys2Proof.Tests
end

section
/-! The outcomes of an operation (00_scope.md R16): what each operation's body leaves, and from it how the
operation ends. -/

namespace Sys2Proof.Machine

/-! ### Outcomes of a run -/

/-- No fault is recorded and the block is not halted. -/
def State.Unfaulted (s : State) : Prop := s.fault = .none ∧ s.ds ≠ .halt

/-- The outcome OK (R16). -/
def State.EndedOk (t : State) : Prop := t.ret = false ∧ t.Unfaulted

/-- The outcome FAULT (R16, R184). -/
def State.EndedInFault (t : State) : Prop :=
  t.ret = true ∧ t.fault ≠ .none ∧ t.ds = .halt ∧ t.final = false

/-- The body of an operation has run on without a fault, or has ended in one: it has not returned FAIL. -/
def Run.OkOrFault : Run → Prop
  | .running t => t.Unfaulted
  | .ended t => t.EndedInFault

theorem raise_endedInFault {code : FaultCode} (h : code ≠ .none) (s : State) :
    (raise code s).EndedInFault :=
  ⟨rfl, h, rfl, decide_eq_false h⟩

theorem State.sendFailed_endedInFault (s : State) (x : Bool × Byte) : (s.sendFailed x).EndedInFault :=
  ⟨rfl, nofun, rfl, rfl⟩

/-- The frame closes such a body as OK or FAULT. -/
theorem Run.OkOrFault.close {r : Run} (h : r.OkOrFault) : r.close.EndedOk ∨ r.close.EndedInFault := by
  cases r with
  | running t => exact .inl ⟨rfl, h⟩
  | ended t => exact .inr h

/-- An operation issued outside HALT ends OK or in a fault if its body, where it is permitted, does. -/
theorem operation_ok_or_fault {permitted : Lifecycle → Bool} {body : State → Run} {s : State}
    (hs : s.ds ≠ .halt) (hb : permitted s.ds = true → (body { s with sp := 0 }).OkOrFault) :
    (operation permitted body s).EndedOk ∨ (operation permitted body s).EndedInFault := by
  obtain ⟨hh, -⟩ | ⟨-, -, he⟩ | ⟨-, hp, he⟩ := operation_cases permitted body s
  · exact absurd hh hs
  · exact he ▸ .inr (raise_endedInFault (code := .seq) nofun s)
  · exact he ▸ (hb hp).close

/-! ### The bodies -/

section
variable {s : State} (hs : s.Unfaulted)
include hs

theorem sendAll_okOrFault (l : List (Bool × Byte)) : (sendAll l s).OkOrFault := by
  obtain ⟨-, hr⟩ | ⟨n, hn, -, hr⟩ := sendAll_cases l s
  · exact hr ▸ hs
  · exact hr ▸ State.sendFailed_endedInFault _ _

theorem sendOne_okOrFault (x : Bool × Byte) : (sendOne x s).OkOrFault := by
  rw [sendOne_eq]
  split
  · exact hs
  · exact State.sendFailed_endedInFault s x

theorem showPages_okOrFault : (showPages s).OkOrFault := by
  rw [showPages_eq]
  exact sendAll_okOrFault hs _

theorem showBuffer_okOrFault : (showBuffer s).OkOrFault := by
  obtain ⟨-, hr⟩ | ⟨-, hr⟩ := showBuffer_cases s
  · exact hr ▸ showPages_okOrFault hs
  · exact hr ▸ raise_endedInFault (code := .length) nofun s

theorem clearDisplay_okOrFault : (clearDisplay s).OkOrFault := by
  rw [clearDisplay]
  generalize blankFB = fb
  exact showPages_okOrFault hs

theorem packBitmap_okOrFault : (packBitmap s).OkOrFault := by
  obtain ⟨-, -, hr⟩ | ⟨-, -, hr⟩ | ⟨-, -, hr⟩ := packBitmap_cases s
  · exact hr ▸ hs
  · exact hr ▸ hs
  · exact hr ▸ raise_endedInFault (code := .shape) nofun s

theorem resetDisplay_okOrFault : (resetDisplay s).OkOrFault := ⟨hs.1, nofun⟩

/-- INIT's body returns FAIL only where the bus initialization fails (R132). -/
theorem initDisplay_okOrFault (seq : List Byte) (hi : s.initOk = true) : (initDisplay seq s).OkOrFault := by
  obtain ⟨hn, -⟩ | ⟨-, -, hr⟩ | ⟨-, n, hn, -, hr⟩ := initDisplay_cases seq s
  · exact absurd (hi.symm.trans hn) nofun
  · exact hr ▸ ⟨hs.1, nofun⟩
  · exact hr ▸ State.sendFailed_endedInFault _ _

end

/-! ### How each operation ends -/

/-- INIT is permitted in UNINIT only (R187). -/
theorem whenUninit_iff {l : Lifecycle} : whenUninit l = true ↔ l = .uninit := by
  cases l <;> simp [whenUninit]

/-- INIT's FAIL return (R183): one draw is made and RET is set; nothing else changes. -/
theorem operation_init_of_not_initOk {s : State} (seq : List Byte) (hd : s.ds = .uninit) (hi : s.initOk = false) :
    operation whenUninit (initDisplay seq) s =
      { s with ret := true, sp := 0, initOracle := s.initOracle.after 1 } := by
  have hi' : State.initOk { s with sp := 0 } = false := hi
  rw [operation_of_permitted (by simp [hd]) (whenUninit_iff.mpr hd)]
  simp [initDisplay, hi', returnFail]

/-- Every operation but an INIT that returns FAIL ends OK or in a fault. -/
theorem exec_ok_or_fault {i : Instr} {s t : State}
    (hop : i ∈ [.reset, .init, .clear, .showFrame, .pack] ∨ ∃ b, i = .cmd b ∨ i = .data b)
    (hs : s.Unfaulted) (hi : i = .init → s.ds = .uninit → s.initOk = true) (h : exec i s = .next t) :
    t.EndedOk ∨ t.EndedInFault := by
  have hs' : State.Unfaulted { s with sp := 0 } := hs
  simp only [List.mem_cons, List.not_mem_nil, or_false] at hop
  obtain (rfl | rfl | rfl | rfl | rfl) | ⟨b, rfl | rfl⟩ := hop
  · cases (exec_reset s).symm.trans h
    exact operation_ok_or_fault hs.2 fun _ => resetDisplay_okOrFault hs'
  · cases (exec_init s).symm.trans h
    exact operation_ok_or_fault hs.2 fun hp => initDisplay_okOrFault hs' _ (hi rfl (whenUninit_iff.mp hp))
  · cases (exec_clear s).symm.trans h
    exact operation_ok_or_fault hs.2 fun _ => clearDisplay_okOrFault hs'
  · cases (exec_showFrame s).symm.trans h
    exact operation_ok_or_fault hs.2 fun _ => showBuffer_okOrFault hs'
  · cases (exec_pack s).symm.trans h
    exact operation_ok_or_fault hs.2 fun _ => packBitmap_okOrFault hs'
  · cases (exec_cmd b s).symm.trans h
    exact operation_ok_or_fault hs.2 fun _ => sendOne_okOrFault hs' _
  · cases (exec_data b s).symm.trans h
    exact operation_ok_or_fault hs.2 fun _ => sendOne_okOrFault hs' _

/-- Settles O29: an INIT in UNINIT whose draw fails returns FAIL, and every other operation ends OK or in a
fault. -/
theorem everyOperationEndsInOneOutcome : Obligations.EveryOperationEndsInOneOutcome := by
  have hfail : ∀ s : State, s.ds = .uninit → s.initOk = false →
      exec .init s = .next { s with ret := true, sp := 0, initOracle := s.initOracle.after 1 } :=
    fun s hd hi => by rw [exec_init, operation_init_of_not_initOk _ hd hi]
  refine ⟨hfail, fun i s t hop hd hf h => ?_⟩
  by_cases hi : i = .init ∧ s.ds = .uninit ∧ s.initOk = false
  · obtain ⟨rfl, hu, ho⟩ := hi
    cases (hfail s hu ho).symm.trans h
    exact .inr (.inl ⟨rfl, hf, hu, rfl, hu, ho⟩)
  · have hi' : i = .init → s.ds = .uninit → s.initOk = true := fun e hu => by simpa [e, hu] using hi
    exact (exec_ok_or_fault hop ⟨hf, hd⟩ hi' h).imp_right .inr

end Sys2Proof.Machine
end

section
/-! What a step can do (10_state.md R21, R31 to R36): one summary of the effect of every instruction and every step,
from which the invariants of the state, the trace, the pins and the lifecycle follow. -/

namespace Sys2Proof.Machine

/-! ### How far a step has come -/

/-- No failed transfer is among the events. -/
def NoBusFail (events : List Event) : Prop := ∀ e ∈ events, e ≠ .busFail

/-- `u` is reached from `s` by at most `n` events and with no fault taken. Only if `pulses` may RST have been driven
or the lifecycle have moved, and then not to HALT. -/
structure State.Progress (pulses : Prop) (n : Nat) (s u : State) : Prop where
  fault_eq : u.fault = s.fault
  fb_wf : Memory.wf Config.fbSize s.fb = true → Memory.wf Config.fbSize u.fb = true
  bm_wf : Memory.wf Config.bmSize s.bm = true → Memory.wf Config.bmSize u.bm = true
  transport_eq : u.transport = s.transport
  cs_eq : u.pinCs = s.pinCs
  bl_eq : u.pinBl = s.pinBl
  dc_of_i2c : s.transport = .i2c → u.pinDc = s.pinDc
  rst_eq : ¬pulses → u.pinRst = s.pinRst
  ds_eq : ¬pulses → u.ds = s.ds
  not_halt : s.ds ≠ .halt → u.ds ≠ .halt
  trace_eq : ∃ events, u.trace = s.trace ++ events ∧ events.length ≤ n ∧ NoBusFail events

/-- Nothing runs: no event is emitted, the lifecycle stays, and RET is not cleared. -/
structure State.Quiet (s t : State) : Prop extends s.Progress False 0 t where
  sp_eq : t.sp = s.sp
  ret_kept : s.ret = true → t.ret = true

/-- What an instruction or a step that emits at most `n` events can have done. -/
inductive State.Effect (pulses : Prop) (n : Nat) (s : State) : State → Prop
  /-- Nothing has run. -/
  | quiet {t : State} : s.Quiet t → s.Effect pulses n t
  /-- It has run to its end, or INIT has returned FAIL. -/
  | done {t : State} : s.ds ≠ .halt → s.Progress pulses n t → t.sp = 0 → s.Effect pulses n t
  /-- A fault that is no transfer's has been taken. -/
  | raised {u : State} {code : FaultCode} : s.ds ≠ .halt → s.Progress pulses n u → code ≠ .none →
      code ≠ .transport → s.Effect pulses n (raise code u)
  /-- A transfer has failed (R115). -/
  | failed {u : State} {k : Nat} : s.ds ≠ .halt → s.Progress pulses k u → k < n →
      s.Effect pulses n (raise .transport (u.append .busFail))

/-- What the body of an operation that `s` permits can have done. -/
def Run.Effect (pulses : Prop) (n : Nat) (s : State) : Run → Prop
  | .running u => s.Progress pulses n u
  | .ended t => s.Effect pulses n t

/-! ### Moving on -/

theorem sendEvent_ne_busFail (t : Transport) (x : Bool × Byte) : sendEvent t x ≠ .busFail := by
  cases t <;> cases hx : x.1 <;> simp [sendEvent, commandEvent, dataEvent, hx]

/-- On I2C no send drives DC (R111, R113). -/
theorem sendsDc_i2c (l : List (Bool × Byte)) (old : Level) : sendsDc .i2c l old = old := by
  induction l with
  | nil => rfl
  | cons x l ih => exact ih

namespace State.Progress

variable {pulses : Prop} {n m : Nat} {s u : State}

theorem refl (s : State) : s.Progress pulses 0 s :=
  ⟨rfl, id, id, rfl, rfl, rfl, fun _ => rfl, fun _ => rfl, fun _ => rfl, id, [], by simp, by simp, nofun⟩

theorem mono {pulses' : Prop} (h : s.Progress pulses n u) (hp : pulses → pulses') (hn : n ≤ m) :
    s.Progress pulses' m u :=
  have ⟨events, he, hl, hb⟩ := h.trace_eq
  { h with
    rst_eq := fun hp' => h.rst_eq (mt hp hp')
    ds_eq := fun hp' => h.ds_eq (mt hp hp')
    trace_eq := ⟨events, he, hl.trans hn, hb⟩ }

theorem withFB (h : s.Progress pulses n u) {fb : List Host.Cell} (hfb : Memory.wf Config.fbSize fb = true)
    (v : Word) : s.Progress pulses n {u with fb := fb, fblen := v} := { h with fb_wf := fun _ => hfb }

theorem sentAll (h : s.Progress pulses n u) (l : List (Bool × Byte)) :
    s.Progress pulses (n + l.length) (u.sentAll l) := by
  obtain ⟨events, he, hl, hb⟩ := h.trace_eq
  refine { h with
    dc_of_i2c := fun ht => ?_
    trace_eq := ⟨events ++ l.map (sendEvent u.transport), ?_, ?_, ?_⟩ }
  · have hu : u.transport = .i2c := h.transport_eq.trans ht
    simpa [State.sentAll, hu, sendsDc_i2c] using h.dc_of_i2c ht
  · simp [State.sentAll, he]
  · simpa using hl
  · intro e hm
    obtain hm | hm := List.mem_append.mp hm
    · exact hb e hm
    · obtain ⟨x, -, rfl⟩ := List.mem_map.mp hm
      exact sendEvent_ne_busFail _ x

theorem pulse (h : s.Progress pulses n u) (hp : pulses) : s.Progress pulses (n + 6) (hwReset u) := by
  obtain ⟨events, he, hl, hb⟩ := h.trace_eq
  refine { h with
    rst_eq := absurd hp
    trace_eq := ⟨events ++ resetPulse, by simp [hwReset_eq, he], by simpa [resetPulse] using hl, ?_⟩ }
  intro e hm
  obtain hm | hm := List.mem_append.mp hm
  · exact hb e hm
  · rintro rfl
    simp [resetPulse] at hm

theorem withLifecycle (h : s.Progress pulses n u) (hp : pulses) {l : Lifecycle} (hl : l ≠ .halt) :
    s.Progress pulses n {u with ds := l} := { h with ds_eq := absurd hp, not_halt := fun _ => hl }

/-- The send that fails after `n` events (R115). -/
theorem sendFailed_effect (h : s.Progress pulses n u) (hs : s.ds ≠ .halt) (hn : n < m) (x : Bool × Byte) :
    s.Effect pulses m (u.sendFailed x) := by
  have hv : s.Progress pulses n
      {u with pinDc := sendDc u.transport x u.pinDc, busOracle := u.busOracle.after 1} := by
    refine { h with dc_of_i2c := fun ht => ?_ }
    have hu : u.transport = .i2c := h.transport_eq.trans ht
    simpa [sendDc, dcDriven, hu] using h.dc_of_i2c ht
  exact .failed hs hv hn

/-! ### The bodies of the operations -/

theorem sendAll_effect (h : s.Progress pulses n u) (hs : s.ds ≠ .halt) {l : List (Bool × Byte)}
    (hl : n + l.length ≤ m) : (sendAll l u).Effect pulses m s := by
  obtain ⟨-, hr⟩ | ⟨k, hk, -, hr⟩ := sendAll_cases l u
  · rw [hr]
    exact (h.sentAll l).mono id hl
  · rw [hr]
    exact (h.sentAll (l.take k)).sendFailed_effect hs (by rw [List.length_take]; omega) l[k]

theorem sendOne_effect (h : s.Progress pulses 0 u) (hs : s.ds ≠ .halt) (x : Bool × Byte) :
    (sendOne x u).Effect pulses 1 s := by
  have e : sendAll [x] u = sendOne x u := Run.andThen_id _
  exact e ▸ h.sendAll_effect hs (by simp)

theorem showPages_effect (h : s.Progress pulses 0 u) (hs : s.ds ≠ .halt) : (showPages u).Effect pulses 1048 s := by
  rw [showPages_eq]
  exact h.sendAll_effect hs (by simp)

theorem showBuffer_effect (h : s.Progress pulses 0 u) (hs : s.ds ≠ .halt) : (showBuffer u).Effect pulses 1048 s := by
  obtain ⟨-, hr⟩ | ⟨-, hr⟩ := showBuffer_cases u
  · exact hr ▸ h.showPages_effect hs
  · exact hr ▸ .raised hs (h.mono id (Nat.zero_le _)) nofun nofun

theorem clearDisplay_effect (h : s.Progress pulses 0 u) (hs : s.ds ≠ .halt) :
    (clearDisplay u).Effect pulses 1048 s := by
  have hfb := wf_blankFB
  rw [clearDisplay]
  generalize blankFB = fb at hfb ⊢
  exact (h.withFB hfb _).showPages_effect hs

theorem packBitmap_effect (h : s.Progress pulses 0 u) (hs : s.ds ≠ .halt) : (packBitmap u).Effect pulses 0 s := by
  obtain ⟨-, -, hr⟩ | ⟨-, -, hr⟩ | ⟨-, -, hr⟩ := packBitmap_cases u
  · exact hr ▸ h.withFB (wf_packNative _) _
  · exact hr ▸ h.withFB (wf_packRotated _) _
  · exact hr ▸ .raised hs h nofun nofun

theorem resetDisplay_effect (h : s.Progress pulses 0 u) (hp : pulses) : (resetDisplay u).Effect pulses 6 s :=
  (h.pulse hp).withLifecycle hp nofun

theorem initDisplay_effect (h : s.Progress pulses 0 u) (hs : s.ds ≠ .halt) (hp : pulses) (seq : List Byte) :
    (initDisplay seq u).Effect pulses (6 + seq.length) s := by
  have hu : s.Progress pulses 6 u.pulsed :=
    pulse (u := {u with initOracle := u.initOracle.after 1}) { h with } hp
  obtain ⟨-, hr⟩ | ⟨-, -, hr⟩ | ⟨-, n, hn, -, hr⟩ := initDisplay_cases seq u
  · have hf : s.Progress pulses 0 (returnFail {u with initOracle := u.initOracle.after 1}) := { h with }
    exact hr ▸ .done hs (hf.mono id (Nat.zero_le _)) rfl
  · have hd := (hu.sentAll (commandSends seq)).withLifecycle hp (l := .ready) nofun
    exact hr ▸ hd.mono id (by simp)
  · have hlen := commandSends_length seq
    exact hr ▸ (hu.sentAll _).sendFailed_effect hs (by rw [List.length_take]; omega) _

end State.Progress

/-! ### The frames and the instructions -/

/-- The most events an instruction emits (R218; for a byte of the sequencer's own R114). -/
def maxEvents : Instr → Nat
  | .cmd _ => 1
  | .data _ => 1
  | .reset => 6
  | .init => 6 + Config.initSeq.length
  | .clear => 1048
  | .showFrame => 1048
  | .pack => 0
  | .setPage _ => 1
  | .setColLo => 1
  | .setColHi => 1

/-- The instructions with a reset pulse (R131, R132), which alone move the lifecycle without a fault (R33). -/
def Pulses (i : Instr) : Prop := i = .reset ∨ i = .init

section
variable {pulses : Prop} {n : Nat} {s u : State}

theorem State.Quiet.refl (s : State) : s.Quiet s := { State.Progress.refl s with sp_eq := rfl, ret_kept := id }

theorem Run.Effect.close {r : Run} (h : r.Effect pulses n s) (hs : s.ds ≠ .halt) :
    s.Effect pulses n r.close := by
  cases r with
  | running u => exact .done hs { h with } rfl
  | ended t => exact h

variable (hu : s.Quiet u)
include hu

theorem State.Quiet.ds : u.ds = s.ds := hu.ds_eq id

theorem State.Quiet.progress : s.Progress pulses 0 u := hu.toProgress.mono False.elim (Nat.le_refl 0)

theorem State.Quiet.refuseHalted : s.Quiet (refuseHalted u) := { hu with ret_kept := fun _ => rfl }

theorem State.Quiet.raise_effect (hs : s.ds ≠ .halt) {code : FaultCode} (hn : code ≠ .none) (ht : code ≠ .transport) :
    s.Effect pulses n (raise code u) := .raised hs (hu.progress.mono id (Nat.zero_le n)) hn ht

theorem State.Quiet.operation_effect {permitted : Lifecycle → Bool} {body : State → Run}
    (hb : ∀ v, s.Progress pulses 0 v → s.ds ≠ .halt → (body v).Effect pulses n s) :
    s.Effect pulses n (operation permitted body u) := by
  obtain ⟨-, he⟩ | ⟨hh, -, he⟩ | ⟨hh, -, he⟩ := operation_cases permitted body u <;> rw [he]
  · exact .quiet hu.refuseHalted
  · exact hu.raise_effect (hu.ds ▸ hh) nofun nofun
  · have hs : s.ds ≠ .halt := hu.ds ▸ hh
    exact (hb { u with sp := 0 } { hu.progress with } hs).close hs

theorem State.Quiet.illegalWord_effect : s.Effect pulses n (illegalWord u) := by
  by_cases hh : u.ds = .halt
  · rw [illegalWord, if_pos hh]
    exact .quiet hu.refuseHalted
  · rw [illegalWord, if_neg hh]
    exact hu.raise_effect (hu.ds ▸ hh) nofun nofun

theorem State.Quiet.sequencerByte_effect (b : Byte) : s.Effect pulses 1 (sequencerByte b u) := by
  have hp : s.Progress pulses 0 {u with sp := 0} := { hu.progress with }
  obtain ⟨-, he⟩ | ⟨hh, -, he⟩ | ⟨hh, -, he⟩ := sequencerByte_cases b u <;> rw [he]
  · exact .quiet hu
  · have hsent := hp.sentAll [(false, b)]
    exact .done (hu.ds ▸ hh) { hsent with } rfl
  · exact hp.sendFailed_effect (hu.ds ▸ hh) Nat.one_pos _

/-- Every instruction answers a next state, with the effect that its body and its frame allow. -/
theorem State.Quiet.exec_next (i : Instr) :
    ∃ t, exec i u = .next t ∧ s.Effect (Pulses i) (maxEvents i) t := by
  cases i with
  | cmd b => exact ⟨_, exec_cmd b u, hu.operation_effect fun _ hv hs => hv.sendOne_effect hs _⟩
  | data b => exact ⟨_, exec_data b u, hu.operation_effect fun _ hv hs => hv.sendOne_effect hs _⟩
  | reset => exact ⟨_, exec_reset u, hu.operation_effect fun _ hv _ => hv.resetDisplay_effect (.inl rfl)⟩
  | init => exact ⟨_, exec_init u, hu.operation_effect fun _ hv hs => hv.initDisplay_effect hs (.inr rfl) _⟩
  | clear => exact ⟨_, exec_clear u, hu.operation_effect fun _ hv hs => hv.clearDisplay_effect hs⟩
  | showFrame => exact ⟨_, exec_showFrame u, hu.operation_effect fun _ hv hs => hv.showBuffer_effect hs⟩
  | pack => exact ⟨_, exec_pack u, hu.operation_effect fun _ hv hs => hv.packBitmap_effect hs⟩
  | setPage page => exact ⟨_, exec_setPage page u, hu.sequencerByte_effect _⟩
  | setColLo => exact ⟨_, exec_setColLo u, hu.sequencerByte_effect _⟩
  | setColHi => exact ⟨_, exec_setColHi u, hu.sequencerByte_effect _⟩

/-- Everything an instruction can do. -/
theorem State.Quiet.exec_effect {i : Instr} {t : State} (h : exec i u = .next t) :
    s.Effect (Pulses i) (maxEvents i) t := by
  obtain ⟨t', he, ht⟩ := hu.exec_next i
  cases he.symm.trans h
  exact ht

end

/-! ### The step -/

/-- Every word that decodes is the encoding of what it decodes to (R81, R84). -/
theorem encode_of_decode {w : InstrWord} {i : Instr} (h : decode w = .ok i) : encode i = w := by
  cases w with
  | host16 w =>
    rw [← append_fields w]
    obtain ⟨ho, rfl⟩ | ⟨ho, rfl⟩ | ⟨hz, ⟨ho, rfl⟩ | ⟨ho, rfl⟩ | ⟨ho, rfl⟩ | ⟨ho, rfl⟩ | ⟨ho, rfl⟩⟩ :=
      decodeHost16_cases h
    · rw [ho]; rfl
    · rw [ho]; rfl
    all_goals rw [ho, hz]; rfl
  | ctrl8 b =>
    obtain ⟨hb, rfl⟩ | ⟨rfl, rfl⟩ | ⟨rfl, rfl⟩ := decodeCtrl8_cases h
    · have key : ∀ b : Byte, b.extractLsb' 3 5 = 0b10110 →
          0xB0 + BitVec.ofNat 8 (b.extractLsb' 0 3).toNat = b := by decide
      exact congrArg InstrWord.ctrl8 (key b hb)
    · rfl
    · rfl

/-- The step whose next input is the word of an instruction runs that instruction (R28; assumption 8). -/
theorem step_of_word {s : State} {w : InstrWord} {i : Instr} {rest : List Input}
    (hi : s.inputs = inputOf w :: rest) (hw : decode w = .ok i) :
    step s = exec i { s with inputs := rest } := by
  rw [step_of_input hi]
  cases w with
  | host16 w => exact writeOp_of_decodes hw _
  | ctrl8 b => simp [inputOf, takeInput, sequencerInput, hw]

theorem State.Quiet.inputTaken (s : State) (rest : List Input) : s.Quiet { s with inputs := rest } :=
  { State.Quiet.refl s with }

/-- A host move that is no write to OP runs nothing (R36). -/
theorem quiet_of_hostMove {m : HostMove} {s u t : State} (hu : s.Quiet u) (hm : ∀ w, m ≠ .writeReg 0 w)
    (h : hostMove m u = .next t) : s.Quiet t := by
  obtain ⟨r, rfl⟩ | ⟨w, rfl, -⟩ | ⟨n, v, -, -, rfl⟩ | ⟨a, v, ha, -, rfl⟩ | ⟨n, p, hn, rfl⟩ := hostMove_cases h
  · exact { hu with }
  · exact absurd rfl (hm w)
  · unfold writeReg
    split <;> exact { hu with }
  · exact { hu with fb_wf := fun hw => Memory.wf_write v ha (hu.fb_wf hw) }
  · exact { hu with bm_wf := fun hw => Memory.wf_write p hn (hu.bm_wf hw) }

/-- Everything a step can do: nothing runs, the word of an illegal operation faults, or the instruction whose own word
is the next input runs. -/
theorem step_inversion {s t : State} (h : step s = .next t) :
    s.Quiet t ∨ (∃ rest, t = illegalWord { s with inputs := rest }) ∨
    ∃ i rest, s.inputs = issue i :: rest ∧ exec i { s with inputs := rest } = .next t := by
  cases hi : s.inputs with
  | nil =>
    cases (step_of_no_input hi).symm.trans h
    exact .inl (.refl s)
  | cons x rest =>
    have hword {w i} (hx : x = inputOf w) (hw : decode w = .ok i) :
        ∃ i rest', x :: rest = issue i :: rest' ∧ exec i { s with inputs := rest' } = .next t :=
      ⟨i, rest, by rw [issue, encode_of_decode hw, hx], (step_of_word (hx ▸ hi) hw).symm.trans h⟩
    rw [step_of_input hi] at h
    cases x with
    | ctrl8 b =>
      cases hw : decode (.ctrl8 b) with
      | ok i => exact .inr (.inr (hword (w := .ctrl8 b) rfl hw))
      | error e => simp [takeInput, sequencerInput, hw] at h
    | host m =>
      by_cases hm : ∀ w, m ≠ .writeReg 0 w
      · exact .inl (quiet_of_hostMove (.inputTaken s rest) hm h)
      · obtain ⟨w, rfl⟩ := not_forall_not.mp hm
        cases hw : decode (.host16 w) with
        | ok i => exact .inr (.inr (hword (w := .host16 w) rfl hw))
        | error e => cases (writeOp_of_illegal hw _).symm.trans h; exact .inr (.inl ⟨rest, rfl⟩)

/-- The most events a step emits (R218). -/
abbrev maxStepEvents : Nat := max 1048 (6 + Config.initSeq.length)

theorem maxEvents_le (i : Instr) : maxEvents i ≤ maxStepEvents := by
  cases i <;> simp [maxEvents]

/-- The next input is the word of an instruction with a reset pulse, and the step from `s` to `t` runs it. -/
def State.StepPulses (s t : State) : Prop :=
  ∃ i rest, Pulses i ∧ s.inputs = issue i :: rest ∧ exec i { s with inputs := rest } = .next t

theorem State.Effect.mono {pulses pulses' : Prop} {n m : Nat} {s t : State} (h : s.Effect pulses n t)
    (hp : pulses → pulses') (hn : n ≤ m) : s.Effect pulses' m t := by
  cases h with
  | quiet h => exact .quiet h
  | done hs h hsp => exact .done hs (h.mono hp hn) hsp
  | raised hs h hn' ht => exact .raised hs (h.mono hp hn) hn' ht
  | failed hs h hk => exact .failed hs (h.mono hp (Nat.le_refl _)) (hk.trans_le hn)

/-- The effect of every step. -/
theorem step_effect {s t : State} (h : step s = .next t) : s.Effect (s.StepPulses t) maxStepEvents t := by
  obtain hq | ⟨rest, rfl⟩ | ⟨i, rest, hi, he⟩ := step_inversion h
  · exact .quiet hq
  · exact (State.Quiet.inputTaken s rest).illegalWord_effect
  · exact ((State.Quiet.inputTaken s rest).exec_effect he).mono (fun hp => ⟨i, rest, hp, hi, he⟩) (maxEvents_le i)

/-! ### The trace and the pins -/

section
variable {pulses : Prop} {n : Nat} {s t : State} (h : s.Effect pulses n t)
include h

theorem State.Effect.trace_append : ∃ events, t.trace = s.trace ++ events ∧ events.length ≤ n := by
  cases h with
  | quiet h =>
    obtain ⟨events, he, hl, -⟩ := h.trace_eq
    exact ⟨events, he, hl.trans (Nat.zero_le n)⟩
  | done _ h _ =>
    obtain ⟨events, he, hl, -⟩ := h.trace_eq
    exact ⟨events, he, hl⟩
  | raised _ h _ _ =>
    obtain ⟨events, he, hl, -⟩ := h.trace_eq
    exact ⟨events, he, hl⟩
  | failed _ h hk =>
    obtain ⟨events, he, hl, -⟩ := h.trace_eq
    exact ⟨events ++ [.busFail], by simp [he], by simpa using Nat.lt_of_le_of_lt hl hk⟩

/-- A fault drives no pin: at every end the pins are those of the progress made. -/
theorem State.Effect.pins : t.pinCs = s.pinCs ∧ t.pinBl = s.pinBl ∧ (¬pulses → t.pinRst = s.pinRst) ∧
    (s.transport = .i2c → t.pinDc = s.pinDc) := by
  cases h with
  | quiet h => exact ⟨h.cs_eq, h.bl_eq, fun _ => h.rst_eq id, h.dc_of_i2c⟩
  | done _ h _ => exact ⟨h.cs_eq, h.bl_eq, h.rst_eq, h.dc_of_i2c⟩
  | raised _ h _ _ => exact ⟨h.cs_eq, h.bl_eq, h.rst_eq, h.dc_of_i2c⟩
  | failed _ h _ => exact ⟨h.cs_eq, h.bl_eq, h.rst_eq, h.dc_of_i2c⟩

/-! ### The lifecycle and the fault -/

theorem State.Effect.quiet_of_halt (hs : s.ds = .halt) : s.Quiet t := by
  cases h with
  | quiet h => exact h
  | done hn _ _ => exact absurd hs hn
  | raised hn _ _ _ => exact absurd hs hn
  | failed hn _ _ => exact absurd hs hn

/-- Either a fault has been taken, or the fault stays and so, without a reset pulse, does the lifecycle. -/
theorem State.Effect.halt_or_kept : t.ds = .halt ∨ (t.fault = s.fault ∧ (¬pulses → t.ds = s.ds)) := by
  cases h with
  | quiet h => exact .inr ⟨h.fault_eq, fun _ => h.ds⟩
  | done _ h _ => exact .inr ⟨h.fault_eq, h.ds_eq⟩
  | raised _ _ _ _ => exact .inl rfl
  | failed _ _ _ => exact .inl rfl

theorem State.Effect.fault_of_halt (hs : s.ds ≠ .halt) (ht : t.ds = .halt) : t.fault ≠ .none := by
  cases h with
  | quiet h => exact absurd (h.ds ▸ ht) hs
  | done _ h _ => exact absurd ht (h.not_halt hs)
  | raised _ _ hc _ => exact hc
  | failed _ _ _ => exact nofun

end

/-! ### The invariant -/

theorem State.Inv.fault_of_not_halt {s : State} (h : s.Inv) (hs : s.ds ≠ .halt) : s.fault = .none :=
  not_not.mp (mt h.halt_iff_fault.mpr hs)

/-- Before any fault no transfer has failed. -/
theorem State.Inv.noBusFail {s : State} (h : s.Inv) (hs : s.ds ≠ .halt) : NoBusFail s.trace := by
  have hdrop := h.busFail_last
  have hlast : s.trace.getLast? ≠ some .busFail := mt h.busFail_iff.mp (by simp [h.fault_of_not_halt hs])
  obtain he | ⟨events, e, he⟩ := List.eq_nil_or_concat s.trace
  · simp [NoBusFail, he]
  · rw [he] at hdrop hlast ⊢
    simpa [NoBusFail, or_imp, forall_and] using And.intro hdrop hlast

theorem State.Progress.noBusFail {pulses : Prop} {n : Nat} {s u : State} (h : s.Progress pulses n u)
    (hs : NoBusFail s.trace) : NoBusFail u.trace := by
  obtain ⟨events, he, -, hb⟩ := h.trace_eq
  rw [he]
  exact fun e hm => (List.mem_append.mp hm).elim (hs e) (hb e)

/-- With no transfer failed and no TRANSPORT fault, what the invariant says of BusFail holds. -/
theorem busFail_clauses {t : State} (ht : NoBusFail t.trace) (hf : t.fault ≠ .transport) :
    (∀ e ∈ t.trace.dropLast, e ≠ .busFail) ∧ (t.trace.getLast? = some .busFail ↔ t.fault = .transport) :=
  ⟨fun e hm => ht e (List.mem_of_mem_dropLast hm),
    fun hl => absurd rfl (ht _ (List.mem_of_getLast? hl)), fun hc => absurd hc hf⟩

theorem State.Quiet.inv {s t : State} (h : s.Quiet t) (hs : s.Inv) : t.Inv := by
  obtain ⟨events, he, hl, -⟩ := h.trace_eq
  have htrace : t.trace = s.trace := by simpa [List.length_eq_zero_iff.mp (Nat.le_zero.mp hl)] using he
  exact {
    halt_iff_fault := by rw [h.ds, h.fault_eq, hs.halt_iff_fault]
    ret_of_halt := fun ht => h.ret_kept (hs.ret_of_halt (h.ds ▸ ht))
    sp_zero := h.sp_eq.trans hs.sp_zero
    fb_wf := h.fb_wf hs.fb_wf
    bm_wf := h.bm_wf hs.bm_wf
    busFail_last := htrace ▸ hs.busFail_last
    busFail_iff := by rw [htrace, h.fault_eq, hs.busFail_iff] }

theorem State.Effect.inv {pulses : Prop} {n : Nat} {s t : State} (h : s.Effect pulses n t) (hs : s.Inv) : t.Inv := by
  cases h with
  | quiet h => exact h.inv hs
  | done hh h hsp =>
    have hf : t.fault = .none := h.fault_eq.trans (hs.fault_of_not_halt hh)
    obtain ⟨hlast, hiff⟩ := busFail_clauses (h.noBusFail (hs.noBusFail hh)) (by simp [hf])
    exact {
      halt_iff_fault := by simp [hf, h.not_halt hh]
      ret_of_halt := fun ht => absurd ht (h.not_halt hh)
      sp_zero := hsp
      fb_wf := h.fb_wf hs.fb_wf
      bm_wf := h.bm_wf hs.bm_wf
      busFail_last := hlast
      busFail_iff := hiff }
  | @raised u code hh h hn ht =>
    obtain ⟨hlast, hiff⟩ := busFail_clauses (t := raise code u) (h.noBusFail (hs.noBusFail hh)) ht
    exact {
      halt_iff_fault := iff_of_true rfl hn
      ret_of_halt := fun _ => rfl
      sp_zero := rfl
      fb_wf := h.fb_wf hs.fb_wf
      bm_wf := h.bm_wf hs.bm_wf
      busFail_last := hlast
      busFail_iff := hiff }
  | failed hh h hk =>
    have hu := h.noBusFail (hs.noBusFail hh)
    exact {
      halt_iff_fault := iff_of_true rfl nofun
      ret_of_halt := fun _ => rfl
      sp_zero := rfl
      fb_wf := h.fb_wf hs.fb_wf
      bm_wf := h.bm_wf hs.bm_wf
      busFail_last := by simpa [NoBusFail] using hu
      busFail_iff := by simp }

/-- Settles O10: a step lets no instruction run in HALT, and what runs outside HALT starts from a trace with no failed
transfer. -/
theorem stepKeepsTheInvariant : Obligations.StepKeepsTheInvariant :=
  fun _ _ hs h => (step_effect h).inv hs

/-- Settles O13: by the effect of a step. -/
theorem stepOnlyAppendsToTheTrace : Obligations.StepOnlyAppendsToTheTrace :=
  fun _ _ h => (step_effect h).trace_append

theorem issue_reset : issue .reset = .host (.writeReg 0 0x0300) := rfl

theorem issue_init : issue .init = .host (.writeReg 0 0x0400) := rfl

/-- Settles O14: by the effect of a step, where only the words of RESET and INIT pulse. -/
theorem stepDrivesOnlyItsOwnPins : Obligations.StepDrivesOnlyItsOwnPins := by
  intro s t h
  obtain ⟨hcs, hbl, hrst, hdc⟩ := (step_effect h).pins
  refine ⟨hcs, hbl, fun hne => ?_, hdc⟩
  obtain ⟨i, rest, rfl | rfl, hi, -⟩ := not_imp_comm.mp hrst hne
  · exact ⟨rest, .inl (issue_reset ▸ hi)⟩
  · exact ⟨rest, .inr (issue_init ▸ hi)⟩

/-! ### The lifecycle's table (R33) -/

theorem ds_of_exec_reset {s t : State} (hs : s.ds ≠ .halt) (h : exec .reset s = .next t) : t.ds = .uninit := by
  cases (exec_reset s).symm.trans h
  rw [operation_of_permitted hs (whenNotHalted_of_ne_halt hs)]
  rfl

theorem ds_of_exec_init_ready {s t : State} (hs : s.ds = .ready) (h : exec .init s = .next t) : t.ds = .halt := by
  cases (exec_init s).symm.trans h
  rw [operation_of_not_permitted (by simp [hs]) (by simp [hs, whenUninit])]
  rfl

theorem ds_of_exec_init_uninit {s t : State} (hs : s.ds = .uninit) (h : exec .init s = .next t)
    (ht : t.ds ≠ .halt) : t.ds = if t.ret = true then .uninit else .ready := by
  cases (exec_init s).symm.trans h
  rw [operation_of_permitted (by simp [hs]) (whenUninit_iff.mpr hs)] at ht ⊢
  obtain ⟨-, hr⟩ | ⟨-, -, hr⟩ | ⟨-, n, hn, -, hr⟩ := initDisplay_cases Config.initSeq { s with sp := 0 }
  · rw [hr]
    simp [hs]
  · rw [hr]
    rfl
  · rw [hr] at ht
    exact absurd rfl ht

/-- The operations with no reset pulse keep the lifecycle unless they fault. -/
theorem ds_of_exec {i : Instr} {s t : State} (hi : ¬Pulses i) (h : exec i s = .next t) (ht : t.ds ≠ .halt) :
    t.ds = s.ds :=
  (((State.Quiet.refl s).exec_effect h).halt_or_kept.resolve_left ht).2 hi

/-- A step that moves the lifecycle without a fault runs RESET or INIT. -/
theorem stepPulses_of_moved {s t : State} (h : step s = .next t) (hm : t.ds ≠ s.ds) (ht : t.ds ≠ .halt) :
    s.StepPulses t :=
  not_imp_comm.mp ((step_effect h).halt_or_kept.resolve_left ht).2 hm

theorem leaves_uninit {s t : State} (h : step s = .next t) (hs : s.ds = .uninit) (hm : t.ds ≠ .uninit) :
    (t.ds = .ready ∧ ∃ rest, s.inputs = .host (.writeReg 0 0x0400) :: rest) ∨ (t.ds = .halt ∧ t.fault ≠ .none) := by
  by_cases ht : t.ds = .halt
  · exact .inr ⟨ht, (step_effect h).fault_of_halt (by simp [hs]) ht⟩
  · obtain ⟨i, rest, rfl | rfl, hi, he⟩ := stepPulses_of_moved h (hs ▸ hm) ht
    · exact absurd (ds_of_exec_reset (by simp [hs]) he) hm
    · refine .inl ⟨?_, rest, issue_init ▸ hi⟩
      cases hd : t.ds <;> simp_all

theorem leaves_ready {s t : State} (h : step s = .next t) (hs : s.ds = .ready) (hm : t.ds ≠ .ready) :
    (t.ds = .uninit ∧ ∃ rest, s.inputs = .host (.writeReg 0 0x0300) :: rest) ∨ (t.ds = .halt ∧ t.fault ≠ .none) := by
  by_cases ht : t.ds = .halt
  · exact .inr ⟨ht, (step_effect h).fault_of_halt (by simp [hs]) ht⟩
  · obtain ⟨i, rest, rfl | rfl, hi, he⟩ := stepPulses_of_moved h (hs ▸ hm) ht
    · exact .inl ⟨ds_of_exec_reset (by simp [hs]) he, rest, issue_reset ▸ hi⟩
    · exact absurd (ds_of_exec_init_ready (s := { s with inputs := rest }) hs he) ht

/-- Settles O15: the rows of the table, each by the lemma of its row. -/
theorem lifecycleMovesOnlyAsItsTableSays : Obligations.LifecycleMovesOnlyAsItsTableSays := by
  refine ⟨fun _ _ => leaves_uninit, fun _ _ => leaves_ready, fun s t h hs => ?_,
    fun _ _ => ds_of_exec_init_uninit, fun _ _ => ds_of_exec_reset, fun i s t hi => ds_of_exec ?_,
    fun m s t hm h => (quiet_of_hostMove (.refl s) hm h).ds, fun s t h hs ht => ?_⟩
  · exact ((step_effect h).quiet_of_halt hs).ds.trans hs
  · obtain hi | ⟨b, rfl | rfl⟩ := hi
    · rintro (rfl | rfl) <;> simp at hi
    · rintro (h | h) <;> cases h
    · rintro (h | h) <;> cases h
  · exact (step_effect h).halt_or_kept.resolve_right fun hk => ht (hk.1.trans hs)

end Sys2Proof.Machine
end

section
/-! The host's queues (10_state.md R36; assumption 2): every body of an operation does the same whatever they hold, and
leaves them as they are. -/

namespace Sys2Proof.Machine

/-- The state with other moves to come and other replies given. -/
def State.withQueues (inputs : List Input) (replies : List Reply) (s : State) : State :=
  { s with inputs := inputs, replies := replies }

/-- A run with other queues in the state it has reached. -/
def Run.withQueues (inputs : List Input) (replies : List Reply) : Run → Run
  | .running s => .running (s.withQueues inputs replies)
  | .ended s => .ended (s.withQueues inputs replies)

/-- The body does the same with any other queues. -/
def IgnoresQueues (body : State → Run) : Prop :=
  ∀ inputs replies s, body (s.withQueues inputs replies) = (body s).withQueues inputs replies

theorem sendOne_ignoresQueues (x : Bool × Byte) : IgnoresQueues (sendOne x) := fun inputs replies s => by
  have ht : (s.withQueues inputs replies).transferOk 0 = s.transferOk 0 := rfl
  rw [sendOne_eq, sendOne_eq, ht]
  split <;> rfl

theorem sendAll_ignoresQueues (l : List (Bool × Byte)) : IgnoresQueues (sendAll l) := fun inputs replies s => by
  induction l generalizing s with
  | nil => rfl
  | cons x l ih =>
    rw [sendAll, sendAll, forEach_cons, forEach_cons, sendOne_ignoresQueues x]
    cases sendOne x s with
    | running u => exact ih u
    | ended t => rfl

theorem showPages_ignoresQueues : IgnoresQueues showPages := fun inputs replies s => by
  rw [showPages_eq, showPages_eq]
  exact sendAll_ignoresQueues (showSends s.fb) inputs replies s

theorem showBuffer_ignoresQueues : IgnoresQueues showBuffer := fun inputs replies s => by
  have hl : (s.withQueues inputs replies).fblen = s.fblen := rfl
  rw [showBuffer, showBuffer, hl]
  split
  · exact showPages_ignoresQueues inputs replies s
  · rfl

theorem clearDisplay_ignoresQueues : IgnoresQueues clearDisplay := fun inputs replies s => by
  rw [clearDisplay, clearDisplay]
  generalize blankFB = fb
  exact showPages_ignoresQueues inputs replies { s with fb := fb, fblen := 1024 }

theorem packBitmap_ignoresQueues : IgnoresQueues packBitmap := fun inputs replies s => by
  have hw : (s.withQueues inputs replies).bmw = s.bmw := rfl
  have hh : (s.withQueues inputs replies).bmh = s.bmh := rfl
  have hp : pix (s.withQueues inputs replies) = pix s := rfl
  rw [packBitmap, packBitmap, hw, hh, hp]
  generalize packNative (pix s) = native, packRotated (pix s) = rotated
  split
  · rfl
  · split <;> rfl

theorem resetDisplay_ignoresQueues : IgnoresQueues resetDisplay := fun _ _ _ => rfl

theorem initDisplay_ignoresQueues (seq : List Byte) : IgnoresQueues (initDisplay seq) := fun inputs replies s => by
  have hi : (s.withQueues inputs replies).initOk = s.initOk := rfl
  simp only [initDisplay, forEach_sendCommand, hi]
  split
  · have h := sendAll_ignoresQueues (commandSends seq) inputs replies s.pulsed
    refine (congrArg (Run.andThen · _) h).trans ?_
    change _ = ((sendAll (commandSends seq) s.pulsed).andThen _).withQueues _ _
    cases sendAll (commandSends seq) s.pulsed <;> rfl
  · rfl

theorem operation_withQueues {permitted : Lifecycle → Bool} {body : State → Run} (hb : IgnoresQueues body)
    (inputs : List Input) (replies : List Reply) (s : State) :
    operation permitted body (s.withQueues inputs replies) =
      (operation permitted body s).withQueues inputs replies := by
  have hd : (s.withQueues inputs replies).ds = s.ds := rfl
  rw [operation, operation, hd]
  split
  · rfl
  · split
    · refine (congrArg Run.close (hb inputs replies { s with sp := 0 })).trans ?_
      cases body { s with sp := 0 } <;> rfl
    · rfl

theorem sequencerByte_eq (b : Byte) (s : State) : sequencerByte b s =
    if s.ds = .halt then s
    else if s.transferOk 0 = true then { State.sent { s with sp := 0 } (false, b) with sp := 0 }
    else State.sendFailed { s with sp := 0 } (false, b) := by
  obtain ⟨h, he⟩ | ⟨h, ht, he⟩ | ⟨h, ht, he⟩ := sequencerByte_cases b s <;> simp [*]

theorem sequencerByte_withQueues (b : Byte) (inputs : List Input) (replies : List Reply) (s : State) :
    sequencerByte b (s.withQueues inputs replies) = (sequencerByte b s).withQueues inputs replies := by
  have hd : (s.withQueues inputs replies).ds = s.ds := rfl
  have ht : (s.withQueues inputs replies).transferOk 0 = s.transferOk 0 := rfl
  rw [sequencerByte_eq, sequencerByte_eq, hd, ht]
  split
  · rfl
  · split <;> rfl

/-- Each instruction is an operation whose body ignores the queues, or a byte of the sequencer's own. -/
theorem exec_withQueues (i : Instr) (inputs : List Input) (replies : List Reply) (s : State) :
    ∃ t, exec i s = .next t ∧ exec i (s.withQueues inputs replies) = .next (t.withQueues inputs replies) := by
  cases i with
  | cmd b =>
    exact ⟨_, exec_cmd b s, congrArg Host.Outcome.next (operation_withQueues (sendOne_ignoresQueues (false, b)) ..)⟩
  | data b =>
    exact ⟨_, exec_data b s, congrArg Host.Outcome.next (operation_withQueues (sendOne_ignoresQueues (true, b)) ..)⟩
  | reset => exact ⟨_, exec_reset s, congrArg Host.Outcome.next (operation_withQueues resetDisplay_ignoresQueues ..)⟩
  | init => exact ⟨_, exec_init s, congrArg Host.Outcome.next (operation_withQueues (initDisplay_ignoresQueues _) ..)⟩
  | clear => exact ⟨_, exec_clear s, congrArg Host.Outcome.next (operation_withQueues clearDisplay_ignoresQueues ..)⟩
  | showFrame =>
    exact ⟨_, exec_showFrame s, congrArg Host.Outcome.next (operation_withQueues showBuffer_ignoresQueues ..)⟩
  | pack => exact ⟨_, exec_pack s, congrArg Host.Outcome.next (operation_withQueues packBitmap_ignoresQueues ..)⟩
  | setPage page => exact ⟨_, exec_setPage page s, congrArg Host.Outcome.next (sequencerByte_withQueues ..)⟩
  | setColLo => exact ⟨_, exec_setColLo s, congrArg Host.Outcome.next (sequencerByte_withQueues ..)⟩
  | setColHi => exact ⟨_, exec_setColHi s, congrArg Host.Outcome.next (sequencerByte_withQueues ..)⟩

/-- Settles O49: by what each instruction does with other queues. -/
theorem execIgnoresTheHostsQueues : Obligations.ExecIgnoresTheHostsQueues := by
  intro i s t inputs replies h
  obtain ⟨t', he, hq⟩ := exec_withQueues i inputs replies s
  cases he.symm.trans h
  exact hq

end Sys2Proof.Machine
end

section
/-! Power-on (10_state.md R35), the step's input (R28) and the host's access to the registers, FB and BM (R23, R29,
R30). -/

namespace Sys2Proof.Machine

/-- Settles O7: each clause is the step whose next input is the word of an instruction. -/
theorem stepRunsTheDecodedInstruction : Obligations.StepRunsTheDecodedInstruction := by
  refine ⟨fun s w i rest => step_of_word (w := .host16 w), fun s b i rest => step_of_word (w := .ctrl8 b),
    fun s => step_of_no_input, fun s nbits w i h => ?_⟩
  have hw : decode (tableWord nbits w) = .ok i := by
    cases hd : decode (tableWord nbits w) <;> simp_all [decodeTableWord, Except.toOption]
  exact step_of_word rfl hw

/-- Settles O8: field by field of the reset state. -/
theorem powerOnValues : Obligations.PowerOnValues :=
  ⟨rfl, rfl, rfl, rfl, rfl, rfl, rfl, rfl, rfl, rfl, fun _ => rfl, fun _ => rfl, fun p => by cases p <;> rfl⟩

theorem inv_reset : State.reset.Inv where
  halt_iff_fault := iff_of_false nofun (absurd rfl)
  ret_of_halt := nofun
  sp_zero := rfl
  fb_wf := rfl
  bm_wf := rfl
  busFail_last := nofun
  busFail_iff := iff_of_false nofun nofun

/-- Settles O9: nothing has run and the trace is empty. -/
theorem powerOnMeetsTheInvariants : Obligations.PowerOnMeetsTheInvariants :=
  ⟨inv_reset, nofun, rfl⟩

/-! ### The registers -/

theorem readReg_of_ge (s : State) {n : Nat} (hn : 6 ≤ n) : readReg s n = 0 := by
  obtain ⟨k, rfl⟩ := Nat.exists_eq_add_of_le' hn
  rfl

/-- STATUS, CFG and the numbers that do not exist ignore a write (R23). -/
theorem writeReg_of_read_only (s : State) {n : Nat} (v : Word) (hn : n < 2 ∨ 4 < n) : writeReg s n v = s := by
  unfold writeReg
  split
  · omega
  · omega
  · omega
  · rfl

theorem hostMove_writeReg {n : Nat} (hn : n ≠ 0) (v : Word) (s : State) :
    hostMove (.writeReg n v) s = .next (writeReg s n v) := by rw [hostMove, if_neg hn]

/-- Settles O46: STATUS by its finitely many field values, every other register by its number. -/
theorem hostAccessToTheRegisters : Obligations.HostAccessToTheRegisters := by
  refine ⟨fun _ _ => rfl, fun s => ⟨rfl, rfl, rfl, rfl, ?_, ?_, fun n => readReg_of_ge s⟩, fun s v => ?_,
    fun s w i h => writeOp_of_decodes h s⟩
  · rw [readReg, statusWord]
    cases s.ds <;> cases s.ret <;> cases s.fault <;> rfl
  · rw [readReg, cfgWord]
    cases s.transport <;> rfl
  · have hro {n : Nat} (h0 : n ≠ 0) (hn : n < 2 ∨ 4 < n) : hostMove (.writeReg n v) s = .next s := by
      rw [hostMove_writeReg h0, writeReg_of_read_only s v hn]
    exact ⟨rfl, rfl, rfl, hro (by omega) (by omega), hro (by omega) (by omega),
      fun n hn => hro (by omega) (by omega)⟩

/-! ### FB and BM -/

/-- Settles O47: what a memory write does to every read, at the one address the host writes. -/
theorem hostAccessToTheFramebuffer : Obligations.HostAccessToTheFramebuffer := by
  refine fun s a v => ⟨fun ha => ⟨if_pos ha, Memory.write s.fb a v, if_pos ha, ?_, fun c hc => ?_,
    Memory.wf_write v ha⟩, fun ha => ⟨if_neg (Nat.not_lt.mpr ha), if_neg (Nat.not_lt.mpr ha)⟩⟩
  · rw [fbByte_write, if_pos rfl]
  · rw [fbByte_write, if_neg hc]

theorem hasPixel_iff (s : State) (x y : Nat) :
    hasPixel s x y = true ↔ x < s.bmw.toNat ∧ y < s.bmh.toNat ∧ pixelCell s x y < Config.bmSize := by
  simp only [hasPixel, Bool.and_eq_true, decide_eq_true_eq, and_assoc]

theorem bmCell_write_same (bm : Memory Pixel) (n : Nat) (p : Pixel) : bmCell (Memory.write bm n p) n = p := by
  rw [bmCell_write, if_pos rfl]

theorem bmCell_write_other (bm : Memory Pixel) {n c : Nat} (p : Pixel) (hc : c ≠ n) :
    bmCell (Memory.write bm n p) c = bmCell bm c := by
  rw [bmCell_write, if_neg hc]

/-- Settles O48: a pixel of the shape is the cell of its number, and a cell below 8192 is a memory cell. -/
theorem hostAccessToTheBitmap : Obligations.HostAccessToTheBitmap := by
  intro s x y p
  refine ⟨fun hx hy hc => ?_, fun n hn => ?_, fun hout => ?_, fun n hn => ?_⟩
  · have hp : hasPixel s x y = true := (hasPixel_iff s x y).mpr ⟨hx, hy, hc⟩
    have hr : hostMove (.readPixel x y) s = .next (s.reply (.pixel (pix s x y))) := if_pos hp
    have hw : hostMove (.writePixel x y p) s = .next { s with bm := Memory.write s.bm (pixelCell s x y) p } :=
      if_pos hp
    exact ⟨hr, (if_pos hc).trans hr.symm, (if_pos hc).trans hw.symm, _, hw, bmCell_write_same _ _ p,
      fun n => bmCell_write_other _ p⟩
  · exact ⟨if_pos hn, _, if_pos hn, bmCell_write_same _ _ p, fun c => bmCell_write_other _ p, Memory.wf_write p hn⟩
  · have hp : ¬hasPixel s x y = true := fun h => by
      obtain ⟨hx, hy, (hc : x + y * s.bmw.toNat < 8192)⟩ := (hasPixel_iff s x y).mp h
      omega
    exact ⟨if_neg hp, if_neg hp⟩
  · exact ⟨if_neg (Nat.not_lt.mpr hn), if_neg (Nat.not_lt.mpr hn)⟩

end Sys2Proof.Machine
end

section
/-! The encoding (30_encoding.md R80 to R86): decoder and encoder are inverse to each other, which words are legal, and
the controller's bytes by their masks. -/

namespace Sys2Proof.Machine

/-! ### The round trips -/

/-- Decoding loses no bit of an operand (R80 to R82, R86). -/
theorem decode_of_encode {i : Instr} (h : i.wellFormed = true) : decode (encode i) = .ok i := by
  cases i with
  | cmd b =>
    change decodeHost16 (0x01#8 ++ b) = _
    rw [decodeHost16, opcodeOf_append, imm8Of_append]
    rfl
  | data b =>
    change decodeHost16 (0x02#8 ++ b) = _
    rw [decodeHost16, opcodeOf_append, imm8Of_append]
    rfl
  | setPage page =>
    have key : ∀ p < 8, decode (encode (.setPage p)) = .ok (.setPage p) := by decide
    exact key page (of_decide_eq_true h)
  | reset => rfl
  | init => rfl
  | clear => rfl
  | showFrame => rfl
  | pack => rfl
  | setColLo => rfl
  | setColHi => rfl

/-- Only SETPAGE has an operand wider than its field, and the decoder reads three bits of it (R86). -/
theorem wellFormed_of_decode {w : InstrWord} {i : Instr} (h : decode w = .ok i) : i.wellFormed = true := by
  cases w with
  | host16 w =>
    obtain ⟨-, rfl⟩ | ⟨-, rfl⟩ | ⟨-, ⟨-, rfl⟩ | ⟨-, rfl⟩ | ⟨-, rfl⟩ | ⟨-, rfl⟩ | ⟨-, rfl⟩⟩ := decodeHost16_cases h
    all_goals rfl
  | ctrl8 b =>
    obtain ⟨-, rfl⟩ | ⟨-, rfl⟩ | ⟨-, rfl⟩ := decodeCtrl8_cases h
    · exact decide_eq_true (b.extractLsb' 0 3).isLt
    · rfl
    · rfl

/-- The words that decode are the encodings of the well-formed instructions. -/
theorem decode_eq_ok_iff {w : InstrWord} {i : Instr} :
    decode w = .ok i ↔ i.wellFormed = true ∧ encode i = w :=
  ⟨fun h => ⟨wellFormed_of_decode h, encode_of_decode h⟩, fun ⟨hi, hw⟩ => hw ▸ decode_of_encode hi⟩

/-- Settles O1: each constructor by its two fields, SETPAGE by its eight pages. -/
theorem decodeOfEncodeIsTheInstruction : Obligations.DecodeOfEncodeIsTheInstruction :=
  fun _ => decode_of_encode

/-- Settles O2: by what the decoder answers in each format. -/
theorem encodeOfDecodeIsTheWord : Obligations.EncodeOfDecodeIsTheWord :=
  fun _ _ => decode_eq_ok_iff.mp

/-- Settles O4: each fixed word decoded. -/
theorem tableWordsDecodeAsWritten : Obligations.TableWordsDecodeAsWritten := by
  unfold Obligations.TableWordsDecodeAsWritten
  decide

/-! ### The legal host words (R83) -/

/-- R83: the legal words by their two fields. -/
theorem decode_host16_isOk_iff (w : Word) : (∃ i, decode (.host16 w) = .ok i) ↔
    w.toNat / 256 = 1 ∨ w.toNat / 256 = 2 ∨ (3 ≤ w.toNat / 256 ∧ w.toNat / 256 ≤ 7 ∧ w.toNat % 256 = 0) := by
  rw [← opcodeOf_toNat, ← imm8Of_toNat]
  constructor
  · rintro ⟨i, h⟩
    obtain ⟨ho, -⟩ | ⟨ho, -⟩ | ⟨hz, ⟨ho, -⟩ | ⟨ho, -⟩ | ⟨ho, -⟩ | ⟨ho, -⟩ | ⟨ho, -⟩⟩ := decodeHost16_cases h
    · exact .inl (by rw [ho]; rfl)
    · exact .inr (.inl (by rw [ho]; rfl))
    all_goals exact .inr (.inr (by rw [ho, hz]; decide))
  · rintro (ho | ho | ⟨h3, h7, hz⟩)
    · exact ⟨.cmd (imm8Of w), by rw [decode, decodeHost16, ho]; rfl⟩
    · exact ⟨.data (imm8Of w), by rw [decode, decodeHost16, ho]; rfl⟩
    · have hz' : imm8Of w = 0x00 := BitVec.eq_of_toNat_eq hz
      interval_cases ho : (opcodeOf w).toNat
      all_goals exact ⟨_, by rw [decode, decodeHost16, ho]; exact if_pos hz'⟩

theorem decode_isError_iff (w : InstrWord) : (∃ e, decode w = .error e) ↔ ¬∃ i, decode w = .ok i := by
  cases decode w <;> simp

/-- The legal words as numbers: CMD and DATA with every immediate, then the five operations without one. -/
def legalNumbers : List Nat := List.range' 0x0100 512 ++ [0x0300, 0x0400, 0x0500, 0x0600, 0x0700]

theorem mem_legalNumbers (n : Nat) : n ∈ legalNumbers ↔
    n / 256 = 1 ∨ n / 256 = 2 ∨ (3 ≤ n / 256 ∧ n / 256 ≤ 7 ∧ n % 256 = 0) := by
  simp only [legalNumbers, List.mem_append, List.mem_range'_1, List.mem_cons, List.not_mem_nil, or_false]
  omega

theorem nodup_legalNumbers : legalNumbers.Nodup := by
  refine List.nodup_append.mpr ⟨List.nodup_range', by decide, fun a ha b hb => ?_⟩
  have hlt : a < 0x0300 := by simpa using (List.mem_range'_1.mp ha).2
  have hge : ∀ b ∈ [0x0300, 0x0400, 0x0500, 0x0600, 0x0700], 0x0300 ≤ b := by decide
  exact Nat.ne_of_lt (hlt.trans_le (hge b hb))

theorem legalNumbers_lt {n : Nat} (h : n ∈ legalNumbers) : n < 2 ^ 16 := by
  have := (mem_legalNumbers n).mp h
  omega

/-- The legal words (R83). -/
def legalWords : List Word := legalNumbers.map (BitVec.ofNat 16)

theorem mem_legalWords (w : Word) : w ∈ legalWords ↔ w.toNat ∈ legalNumbers := by
  refine List.mem_map.trans ⟨?_, fun h => ⟨w.toNat, h, by simp⟩⟩
  rintro ⟨n, hn, rfl⟩
  rwa [BitVec.toNat_ofNat, Nat.mod_eq_of_lt (legalNumbers_lt hn)]

theorem nodup_legalWords : legalWords.Nodup := by
  refine nodup_legalNumbers.map_on fun a ha b hb h => ?_
  have := congrArg BitVec.toNat h
  rwa [BitVec.toNat_ofNat, BitVec.toNat_ofNat, Nat.mod_eq_of_lt (legalNumbers_lt ha),
    Nat.mod_eq_of_lt (legalNumbers_lt hb)] at this

/-- Settles O3: illegal is not legal, the legal words are listed, and an illegal one takes the fault. -/
theorem illegalHostWordsFault : Obligations.IllegalHostWordsFault := by
  have hlen : legalWords.length = 517 := by simp [legalWords, legalNumbers]
  refine ⟨fun w => ?_, ⟨legalWords, nodup_legalWords, hlen, fun w => ?_⟩, fun w e s he hs => ?_⟩
  · rw [decode_isError_iff, decode_host16_isOk_iff]
    omega
  · rw [mem_legalWords, mem_legalNumbers, decode_host16_isOk_iff]
  · rw [hostMove, if_pos rfl, writeOp_of_illegal he, illegalWord, if_neg hs]
    rfl

/-! ### The controller's bytes (R86) -/

/-- SETPAGE's mask keeps the five bits the decoder compares, and the page is the other three. -/
theorem decode_eq_setPage_iff (b : Byte) (page : Nat) :
    decode (.ctrl8 b) = .ok (.setPage page) ↔ b &&& 0xF8 = 0xB0 ∧ page = b.toNat % 8 := by
  have hmask : ∀ b : Byte, b.extractLsb' 3 5 = 0b10110 ↔ b &&& 0xF8 = 0xB0 := by decide
  have hpage : (b.extractLsb' 0 3).toNat = b.toNat % 8 := by simp [BitVec.extractLsb'_toNat]
  rw [← hmask, ← hpage]
  constructor
  · intro h
    obtain ⟨hb, hi⟩ | ⟨-, hi⟩ | ⟨-, hi⟩ := decodeCtrl8_cases h
    · exact ⟨hb, Instr.setPage.inj hi⟩
    · cases hi
    · cases hi
  · rintro ⟨hb, rfl⟩
    exact if_pos hb

/-- SETCOLLO and SETCOLHI have one byte each, and their mask keeps all of it. -/
theorem decode_eq_iff_of_encode {i : Instr} {b : Byte} (hi : i.wellFormed = true) (he : encode i = .ctrl8 b)
    (c : Byte) : decode (.ctrl8 c) = .ok i ↔ c &&& 0xFF = b := by
  have hmask : c &&& 0xFF = c := BitVec.and_allOnes
  rw [decode_eq_ok_iff, he, hmask, InstrWord.ctrl8.injEq]
  exact (and_iff_right hi).trans eq_comm

/-- Settles O6: SETPAGE by its mask, the other two by their one byte. -/
theorem controllerBytesDecodeByTheirMasks : Obligations.ControllerBytesDecodeByTheirMasks :=
  ⟨decode_eq_setPage_iff, decode_eq_iff_of_encode rfl rfl, decode_eq_iff_of_encode rfl rfl⟩

/-- Settles O25: each of the three is its byte of the sequencer's own. -/
theorem controllerByteIsSentAsACommand : Obligations.ControllerByteIsSentAsACommand := by
  intro i b s hi
  have he : exec i s = .next (sequencerByte b s) := by
    obtain ⟨page, -, rfl, rfl⟩ | ⟨rfl, rfl⟩ | ⟨rfl, rfl⟩ := hi
    · exact exec_setPage page s
    · exact exec_setColLo s
    · exact exec_setColHi s
  rw [he, sequencerByte_eq]
  refine ⟨fun hs ht => ?_, fun hs ht => ?_, fun hs => ?_⟩
  · rw [if_neg hs, if_pos ht]
    rfl
  · rw [if_neg hs, if_neg (by simp [ht])]
    rfl
  · rw [if_pos hs]

end Sys2Proof.Machine
end

section
/-! Invariants of the trace (30_encoding.md R85, 10_state.md R32): what every event a transport sends, the reset pulse
and BusFail preserve holds after every instruction and every step. -/

namespace Sys2Proof.Machine

/-- A property of the strap and the trace that no event the block emits breaks. -/
structure TraceInvariant (I : Transport → List Event → Prop) : Prop where
  send : ∀ t events x, I t events → I t (events ++ [sendEvent t x])
  pulse : ∀ t events, I t events → I t (events ++ resetPulse)
  busFail : ∀ t events, I t events → I t (events ++ [.busFail])

/-- The property holds in the state a run has reached, still running or ended. -/
def Run.TraceMeets (I : Transport → List Event → Prop) : Run → Prop
  | .running t => I t.transport t.trace
  | .ended t => I t.transport t.trace

/-- What runs nothing emits nothing. -/
theorem State.Quiet.trace {s t : State} (h : s.Quiet t) : t.trace = s.trace := by
  obtain ⟨events, he, hl, -⟩ := h.trace_eq
  rw [he, List.length_eq_zero_iff.mp (Nat.le_zero.mp hl), List.append_nil]

section
variable {I : Transport → List Event → Prop} (hI : TraceInvariant I)
include hI

namespace TraceInvariant

section
variable {s : State} (hs : I s.transport s.trace)
include hs

theorem sentAll_keeps (l : List (Bool × Byte)) : I (s.sentAll l).transport (s.sentAll l).trace := by
  induction l generalizing s with
  | nil => simpa using hs
  | cons x l ih =>
    rw [State.sentAll_cons]
    exact ih (s := s.sent x) (hI.send _ _ x hs)

theorem sendAll_meets (l : List (Bool × Byte)) : (sendAll l s).TraceMeets I := by
  obtain ⟨-, hr⟩ | ⟨n, hn, -, hr⟩ := sendAll_cases l s
  · exact hr ▸ hI.sentAll_keeps hs l
  · exact hr ▸ hI.busFail _ _ (hI.sentAll_keeps hs (l.take n))

theorem sendOne_meets (x : Bool × Byte) : (sendOne x s).TraceMeets I := by
  rw [sendOne_eq]
  split
  · exact hI.send _ _ x hs
  · exact hI.busFail _ _ hs

theorem showPages_meets : (showPages s).TraceMeets I := by
  rw [showPages_eq]
  exact hI.sendAll_meets hs _

theorem showBuffer_meets : (showBuffer s).TraceMeets I := by
  obtain ⟨-, hr⟩ | ⟨-, hr⟩ := showBuffer_cases s
  · exact hr ▸ hI.showPages_meets hs
  · exact hr ▸ hs

theorem clearDisplay_meets : (clearDisplay s).TraceMeets I := by
  rw [clearDisplay]
  generalize blankFB = fb
  exact hI.showPages_meets hs

omit hI in
theorem packBitmap_meets : (packBitmap s).TraceMeets I := by
  obtain ⟨-, -, hr⟩ | ⟨-, -, hr⟩ | ⟨-, -, hr⟩ := packBitmap_cases s
  all_goals exact hr ▸ hs

theorem hwReset_keeps : I (hwReset s).transport (hwReset s).trace := hwReset_eq s ▸ hI.pulse _ _ hs

theorem resetDisplay_meets : (resetDisplay s).TraceMeets I := hI.hwReset_keeps hs

theorem initDisplay_meets (seq : List Byte) : (initDisplay seq s).TraceMeets I := by
  have hp : I s.pulsed.transport s.pulsed.trace :=
    hI.hwReset_keeps (s := { s with initOracle := s.initOracle.after 1 }) hs
  obtain ⟨-, hr⟩ | ⟨-, -, hr⟩ | ⟨-, n, hn, -, hr⟩ := initDisplay_cases seq s
  · exact hr ▸ hs
  · exact hr ▸ hI.sentAll_keeps hp (commandSends seq)
  · exact hr ▸ hI.busFail _ _ (hI.sentAll_keeps hp ((commandSends seq).take n))

end

omit hI in
/-- The operation frame emits nothing of its own (R186). -/
theorem operation_keeps {permitted : Lifecycle → Bool} {body : State → Run} {s : State} (hs : I s.transport s.trace)
    (hb : (body { s with sp := 0 }).TraceMeets I) :
    I (operation permitted body s).transport (operation permitted body s).trace := by
  obtain ⟨-, he⟩ | ⟨-, -, he⟩ | ⟨-, -, he⟩ := operation_cases permitted body s <;> rw [he]
  · exact hs
  · exact hs
  · cases hr : body { s with sp := 0 } with
    | running t => exact (hr ▸ hb : (Run.running t).TraceMeets I)
    | ended t => exact (hr ▸ hb : (Run.ended t).TraceMeets I)

theorem sequencerByte_keeps (b : Byte) {s : State} (hs : I s.transport s.trace) :
    I (sequencerByte b s).transport (sequencerByte b s).trace := by
  obtain ⟨-, he⟩ | ⟨-, -, he⟩ | ⟨-, -, he⟩ := sequencerByte_cases b s <;> rw [he]
  · exact hs
  · exact hI.send _ _ (false, b) hs
  · exact hI.busFail _ _ hs

/-- Every instruction keeps an invariant of the trace. -/
theorem exec_keeps {i : Instr} {s t : State} (hs : I s.transport s.trace) (h : exec i s = .next t) :
    I t.transport t.trace := by
  have hs0 : I (State.transport { s with sp := 0 }) (State.trace { s with sp := 0 }) := hs
  cases i with
  | cmd b => cases (exec_cmd b s).symm.trans h; exact operation_keeps hs (hI.sendOne_meets hs0 _)
  | data b => cases (exec_data b s).symm.trans h; exact operation_keeps hs (hI.sendOne_meets hs0 _)
  | reset => cases (exec_reset s).symm.trans h; exact operation_keeps hs (hI.resetDisplay_meets hs0)
  | init => cases (exec_init s).symm.trans h; exact operation_keeps hs (hI.initDisplay_meets hs0 _)
  | clear => cases (exec_clear s).symm.trans h; exact operation_keeps hs (hI.clearDisplay_meets hs0)
  | showFrame => cases (exec_showFrame s).symm.trans h; exact operation_keeps hs (hI.showBuffer_meets hs0)
  | pack => cases (exec_pack s).symm.trans h; exact operation_keeps hs (packBitmap_meets hs0)
  | setPage page => cases (exec_setPage page s).symm.trans h; exact hI.sequencerByte_keeps _ hs
  | setColLo => cases (exec_setColLo s).symm.trans h; exact hI.sequencerByte_keeps _ hs
  | setColHi => cases (exec_setColHi s).symm.trans h; exact hI.sequencerByte_keeps _ hs

/-- Every step keeps an invariant of the trace. -/
theorem step_keeps {s t : State} (hs : I s.transport s.trace) (h : step s = .next t) : I t.transport t.trace := by
  obtain hq | ⟨rest, rfl⟩ | ⟨i, rest, -, he⟩ := step_inversion h
  · rw [hq.transport_eq, hq.trace]
    exact hs
  · rw [illegalWord]
    split
    · exact hs
    · exact hs
  · exact hI.exec_keeps (s := { s with inputs := rest }) hs he

end TraceInvariant

end

/-! ### The transport's own events (R85) -/

/-- The events a transport sends fit it. -/
theorem sendEvent_fits (t : Transport) (x : Bool × Byte) : (sendEvent t x).fits t = true := by
  obtain ⟨d, b⟩ := x
  cases t <;> cases d <;> rfl

theorem fits_append {t : Transport} {events new : List Event} (hnew : ∀ e ∈ new, e.fits t = true)
    (h : ∀ e ∈ events, e.fits t = true) : ∀ e ∈ events ++ new, e.fits t = true :=
  List.forall_mem_append.mpr ⟨h, hnew⟩

/-- What is emitted fits the strap: a send by `sendEvent_fits`, the pulse and BusFail on either transport. -/
theorem fits_traceInvariant : TraceInvariant fun t events => ∀ e ∈ events, e.fits t = true where
  send t _ x := fits_append (List.forall_mem_singleton.mpr (sendEvent_fits t x))
  pulse t _ := fits_append (by cases t <;> decide)
  busFail t _ := fits_append (by cases t <;> decide)

theorem State.Effect.transport_eq {pulses : Prop} {n : Nat} {s t : State} (h : s.Effect pulses n t) :
    t.transport = s.transport := by
  cases h with
  | quiet h => exact h.transport_eq
  | done _ h _ => exact h.transport_eq
  | raised _ h _ _ => exact h.transport_eq
  | failed _ h _ => exact h.transport_eq

/-- Settles O11: fitting the strap is an invariant of the trace, and the effect of a step keeps the strap. -/
theorem stepKeepsTheTransportsOwnEvents : Obligations.StepKeepsTheTransportsOwnEvents :=
  fun _ _ hs h => ⟨fits_traceInvariant.step_keeps hs h, (step_effect h).transport_eq⟩

end Sys2Proof.Machine
end

section
/-! The frame position by position (41_driver.md R137), what the page commands of `ShowPages()` are, and the display of
a packed bitmap (30_encoding.md R86, R87, R90; 42_packer.md R164). -/

namespace Sys2Proof.Machine

/-! ### The frame, position by position -/

theorem sendEvent_showSend (t : Transport) (fb : List Host.Cell) (n : Nat) :
    sendEvent t (showSend fb n) = showEvent t fb n := by
  rw [showSend, showEvent, apply_ite (sendEvent t), apply_ite (sendEvent t), apply_ite (sendEvent t)]
  rfl

/-- The frame is the list of the events of its positions (R137). -/
theorem frameEvents_eq (t : Transport) (fb : List Host.Cell) :
    frameEvents t fb = (List.range 1048).map (showEvent t fb) := by
  rw [← showSends_events, showSends_eq, List.map_map]
  exact List.map_congr_left fun n _ => sendEvent_showSend t fb n

@[simp] theorem frameEvents_length (t : Transport) (fb : List Host.Cell) : (frameEvents t fb).length = 1048 := by
  simp [frameEvents_eq]

theorem frameEvents_getElem? (t : Transport) (fb : List Host.Cell) {n : Nat} (hn : n < 1048) :
    (frameEvents t fb)[n]? = some (showEvent t fb n) := by
  simp [frameEvents_eq, hn]

/-- The data byte of column `c` of page `p` stands at position `131p + 3 + c` (R137). -/
theorem showEvent_data (t : Transport) (fb : List Host.Cell) (p : Nat) {c : Nat} (hc : c < 128) :
    showEvent t fb (131 * p + 3 + c) = dataEvent t (~~~fbByte fb (c + 128 * p)) := by
  have hdiv : (131 * p + 3 + c) / 131 = p := by omega
  have hmod : (131 * p + 3 + c) % 131 = 3 + c := by omega
  rw [showEvent, hdiv, hmod, if_neg (by omega), if_neg (by omega), if_neg (by omega), Nat.add_sub_cancel_left,
    Nat.add_comm]

/-- The three commands a page starts with (R134). -/
def pageCommands (t : Transport) (page : Nat) : List Event :=
  [commandEvent t (pageSelect page), commandEvent t colLow, commandEvent t colHigh]

theorem showEvent_commands (t : Transport) (fb : List Host.Cell) (p : Nat) :
    [showEvent t fb (131 * p), showEvent t fb (131 * p + 1), showEvent t fb (131 * p + 1 + 1)] =
      pageCommands t p := by
  have hdiv : (131 * p) / 131 = p := by omega
  have hmod : (131 * p) % 131 = 0 ∧ (131 * p + 1) % 131 = 1 ∧ (131 * p + 1 + 1) % 131 = 2 := by omega
  simp [showEvent, hmod, hdiv, pageCommands, pageSelect, colLow, colHigh]

/-- From position `131 * page` on the frame starts with the page's three commands. -/
theorem frameEvents_page (t : Transport) (fb : List Host.Cell) {page : Nat} (hp : page < 8) :
    ((frameEvents t fb).drop (131 * page)).take 3 = pageCommands t page := by
  obtain ⟨m, hm⟩ : ∃ m, 1048 - 131 * page = m + 1 + 1 + 1 := ⟨1045 - 131 * page, by omega⟩
  rw [frameEvents_eq, ← List.map_drop, List.range_eq_range', List.drop_range', hm, ← showEvent_commands t fb]
  simp [List.range'_succ]

/-- The data events of a page, after its three commands (R134). -/
def pageData (t : Transport) (fb : List Host.Cell) (page : Nat) : List Event :=
  (List.range 128).map fun c => dataEvent t (~~~fbByte fb (128 * page + c))

@[simp] theorem pageData_length (t : Transport) (fb : List Host.Cell) (page : Nat) :
    (pageData t fb page).length = 128 := by simp [pageData]

theorem pageSends_events (t : Transport) (fb : List Host.Cell) (page : Nat) :
    (pageSends fb page).map (sendEvent t) = pageCommands t page ++ pageData t fb page := by
  simp [pageSends, pageCommands, pageData, sendEvent, shownByte, Function.comp_def]

theorem sentAll_pageSends_trace (s : State) (fb : List Host.Cell) (page : Nat) :
    (s.sentAll (pageSends fb page)).trace =
      s.trace ++ pageCommands s.transport page ++ pageData s.transport fb page := by
  rw [State.sentAll, pageSends_events, List.append_assoc]

/-- With no transfer failing a page's sends all go out (R134). -/
theorem sendPage_of_ok {page : Nat} {s : State} (h : TransfersOk s 131) :
    sendPage page s = .running (s.sentAll (pageSends s.fb page)) := by
  rw [sendPage_eq]
  exact sendAll_of_ok (by simpa [pageSends] using h)

/-- With no transfer failing the whole frame goes out (R134). -/
theorem showPages_of_ok {s : State} (h : TransfersOk s 1048) :
    showPages s = .running (s.sentAll (showSends s.fb)) := by
  rw [showPages_eq]
  exact sendAll_of_ok (by simpa using h)

/-- Settles O5: the masks by what the decoder reads, the commands by the frame's positions. -/
theorem controllerBytesAreTheOnesShowPagesSends : Obligations.ControllerBytesAreTheOnesShowPagesSends := by
  obtain ⟨hpage, hlo, hhi⟩ := controllerBytesDecodeByTheirMasks
  refine ⟨fun page hp => ⟨rfl, ?_⟩, rfl, rfl, fun b page => ?_, fun b => ?_, fun b => ?_, fun page s h => ?_,
    fun s h => ?_⟩
  · have key : ∀ p < 8, (0xB0 : Byte) + BitVec.ofNat 8 p = 0xB0 ||| BitVec.ofNat 8 p := by decide
    exact key page hp
  · rw [← hpage, decode_eq_ok_iff, Instr.wellFormed, decide_eq_true_iff]
  · rw [← hlo, decode_eq_ok_iff]
    exact (and_iff_right rfl).symm
  · rw [← hhi, decode_eq_ok_iff]
    exact (and_iff_right rfl).symm
  · exact ⟨_, pageData s.transport s.fb page, pageSelect page, colLow, colHigh, sendPage_of_ok h, pageData_length ..,
      sentAll_pageSends_trace .., rfl, rfl, rfl⟩
  · exact ⟨_, frameEvents s.transport s.fb, showPages_of_ok h, by rw [sentAll_showSends], frameEvents_length ..,
      fun page hp => ⟨pageSelect page, colLow, colHigh, frameEvents_page _ _ hp, rfl, rfl, rfl⟩⟩

/-! ### SHOW of a packed bitmap -/

/-- SHOW that completes: in READY, with the full length and no transfer failing (R135). -/
theorem exec_showFrame_of_ok {s : State} (hs : s.ds = .ready) (hl : s.fblen = 1024) (h : TransfersOk s 1048) :
    exec .showFrame s = .next (finish (State.sentAll { s with sp := 0 } (showSends s.fb))) := by
  have hr : whenReady s.ds = true := by rw [hs]; rfl
  rw [exec_showFrame, operation_of_permitted (by simp [hs]) hr, showBuffer, if_pos hl,
    showPages_of_ok (s := { s with sp := 0 }) h, Run.close_running]

/-- R164: bit `k` of the packed byte of column `c` of page `p` is the pixel at `(c, 8p + k)`. -/
theorem packNative_bit (q : Nat → Nat → Pixel) {c p k : Nat} (hc : c < 128) (hp : p < 8) (hk : k < 8) :
    (fbByte (packNative q) (c + 128 * p)).getLsbD k = (q c (8 * p + k)).bit := by
  have hbit : (fbByte (packNative q) (c + 128 * p)).getLsbD k = true ↔ q c (8 * p + k) ≠ .ink := by
    rw [packNative, pack_bit q nativeIndex _ (by simp only [Config.fbSize]; omega) hk]
    constructor
    · intro h hi
      refine h (c, 8 * p + k) ((mem_grid ..).mpr (by simp only [Config.width, Config.height]; omega)) hi ?_ ?_
      · simp only [nativeIndex, Config.width]; omega
      · simp only [pixelBit]; omega
    · rintro h ⟨x, y⟩ hv hi ha rfl
      obtain ⟨hx, -⟩ := (mem_grid ..).mp hv
      simp only [nativeIndex, Config.width, pixelBit] at ha hx h hi
      have hxc : x = c := by omega
      have hyp : 8 * p + y % 8 = y := by omega
      exact h (by rw [hyp, ← hxc]; exact hi)
  cases hq : q c (8 * p + k) with
  | ink => simpa [hq, Pixel.bit] using hbit
  | background => simpa [hq, Pixel.bit] using hbit

/-- The data byte of a packed byte lights the ink (R87, R164). -/
theorem shown_packNative_bit (q : Nat → Nat → Pixel) {c p k : Nat} (hc : c < 128) (hp : p < 8) (hk : k < 8) :
    (~~~fbByte (packNative q) (c + 128 * p)).getLsbD k = true ↔ q c (8 * p + k) = .ink := by
  rw [BitVec.getLsbD_not, packNative_bit q hc hp hk]
  cases q c (8 * p + k) <;> simp [Pixel.bit, hk]

/-- Settles O42: SHOW sends the packed buffer, whose inverted bits are the ink. -/
theorem packThenShowLightsTheInk : Obligations.PackThenShowLightsTheInk := by
  intro s t u hs hw hh hok hpack hshow
  cases (exec_pack_native (by simp [hs]) hw hh).symm.trans hpack
  have hlit := fun c p k => @shown_packNative_bit (pix s) c p k
  generalize packNative (pix s) = fb at hshow hlit
  cases (exec_showFrame_of_ok (s := { s with fb := fb, fblen := 1024, ret := false, sp := 0 }) hs rfl hok).symm.trans
    hshow
  rw [sentAll_showSends]
  refine ⟨rfl, rfl, frameEvents s.transport fb, rfl, frameEvents_length .., fun c p hc hp =>
    ⟨_, ?_, fun k hk => hlit c p k hc hp hk⟩⟩
  rw [frameEvents_getElem? _ _ (by omega), showEvent_data _ _ _ hc]

end Sys2Proof.Machine
end

section
/-! What the instructions that store nothing leave unchanged (40_transport.md R116, R117; 41_driver.md R131, R132, R135;
30_encoding.md R86): all but CLEAR and PACK. -/

namespace Sys2Proof.Machine

/-! ### Storing nothing -/

/-- `t` is `s` but for what sending, pulsing and ending touch: the lifecycle and the outcome, RST and DC, the trace and
the transfer answers. -/
def State.StoresNothing (s t : State) : Prop :=
  t = { s with
    sp := t.sp
    ds := t.ds
    ret := t.ret
    fault := t.fault
    pinRst := t.pinRst
    pinDc := t.pinDc
    trace := t.trace
    busOracle := t.busOracle }

section
variable {s t : State} (h : s.StoresNothing t)
include h

theorem State.StoresNothing.fb : t.fb = s.fb := (congrArg State.fb h :)

theorem State.StoresNothing.bm : t.bm = s.bm := (congrArg State.bm h :)

theorem State.StoresNothing.fblen : t.fblen = s.fblen := (congrArg State.fblen h :)

theorem State.StoresNothing.bmw : t.bmw = s.bmw := (congrArg State.bmw h :)

theorem State.StoresNothing.bmh : t.bmh = s.bmh := (congrArg State.bmh h :)

theorem State.StoresNothing.inputs : t.inputs = s.inputs := (congrArg State.inputs h :)

theorem State.StoresNothing.replies : t.replies = s.replies := (congrArg State.replies h :)

theorem State.StoresNothing.initOracle : t.initOracle = s.initOracle := (congrArg State.initOracle h :)

end

/-- The state a run has reached, still running or ended, has stored nothing since `s`. -/
def Run.StoresNothing (s : State) : Run → Prop
  | .running t => s.StoresNothing t
  | .ended t => s.StoresNothing t

theorem sendAll_storesNothing (l : List (Bool × Byte)) (s : State) : (sendAll l s).StoresNothing s := by
  obtain ⟨-, hr⟩ | ⟨n, hn, -, hr⟩ := sendAll_cases l s <;> rw [hr]
  · exact rfl
  · exact rfl

theorem sendOne_storesNothing (x : Bool × Byte) (s : State) : (sendOne x s).StoresNothing s := by
  have e : sendAll [x] s = sendOne x s := Run.andThen_id _
  exact e ▸ sendAll_storesNothing [x] s

theorem showPages_storesNothing (s : State) : (showPages s).StoresNothing s := by
  rw [showPages_eq]
  exact sendAll_storesNothing _ s

theorem showBuffer_storesNothing (s : State) : (showBuffer s).StoresNothing s := by
  obtain ⟨-, hr⟩ | ⟨-, hr⟩ := showBuffer_cases s <;> rw [hr]
  · exact showPages_storesNothing s
  · exact rfl

theorem resetDisplay_storesNothing (s : State) : (resetDisplay s).StoresNothing s := rfl

/-- INIT's body draws one `init_ok` answer, and apart from that stores nothing (R132). -/
theorem initDisplay_storesNothing (seq : List Byte) (s : State) :
    (initDisplay seq s).StoresNothing { s with initOracle := s.initOracle.after 1 } := by
  obtain ⟨-, hr⟩ | ⟨-, -, hr⟩ | ⟨-, n, hn, -, hr⟩ := initDisplay_cases seq s <;> rw [hr]
  all_goals exact rfl

/-- The operation frame stores nothing of its own (R186): refused or out of order it leaves `s`, and otherwise what its
body has stored. A body that may draw an `init_ok` answer leaves that oracle at `o`; one that does not, where it was. -/
theorem operation_storesNothing {permitted : Lifecycle → Bool} {body : State → Run} {s : State} {o : Oracle}
    (hb : (body { s with sp := 0 }).StoresNothing { s with sp := 0, initOracle := o }) :
    s.StoresNothing (operation permitted body s) ∨
      State.StoresNothing { s with initOracle := o } (operation permitted body s) := by
  obtain ⟨-, he⟩ | ⟨-, -, he⟩ | ⟨-, -, he⟩ := operation_cases permitted body s <;> rw [he]
  · exact .inl rfl
  · exact .inl rfl
  · cases hr : body { s with sp := 0 } with
    | running t =>
      rw [hr] at hb
      exact .inr (congrArg finish hb)
    | ended t =>
      rw [hr] at hb
      exact .inr hb

theorem sequencerByte_storesNothing (b : Byte) (s : State) : s.StoresNothing (sequencerByte b s) := by
  obtain ⟨-, he⟩ | ⟨-, -, he⟩ | ⟨-, -, he⟩ := sequencerByte_cases b s <;> rw [he]
  all_goals exact rfl

/-- Every instruction but CLEAR and PACK stores nothing, INIT apart from drawing an `init_ok` answer. -/
theorem exec_storesNothing {i : Instr} {s t : State} (hc : i ≠ .clear) (hp : i ≠ .pack) (h : exec i s = .next t) :
    s.StoresNothing t ∨ (i = .init ∧ ∃ o, State.StoresNothing { s with initOracle := o } t) := by
  cases i with
  | cmd b =>
    cases (exec_cmd b s).symm.trans h
    exact .inl (or_self_iff.mp (operation_storesNothing (sendOne_storesNothing _ _)))
  | data b =>
    cases (exec_data b s).symm.trans h
    exact .inl (or_self_iff.mp (operation_storesNothing (sendOne_storesNothing _ _)))
  | reset =>
    cases (exec_reset s).symm.trans h
    exact .inl (or_self_iff.mp (operation_storesNothing (resetDisplay_storesNothing _)))
  | init =>
    cases (exec_init s).symm.trans h
    exact (operation_storesNothing (initDisplay_storesNothing _ _)).imp_right fun hi => ⟨rfl, _, hi⟩
  | showFrame =>
    cases (exec_showFrame s).symm.trans h
    exact .inl (or_self_iff.mp (operation_storesNothing (showBuffer_storesNothing _)))
  | clear => exact absurd rfl hc
  | pack => exact absurd rfl hp
  | setPage page => cases (exec_setPage page s).symm.trans h; exact .inl (sequencerByte_storesNothing _ s)
  | setColLo => cases (exec_setColLo s).symm.trans h; exact .inl (sequencerByte_storesNothing _ s)
  | setColHi => cases (exec_setColHi s).symm.trans h; exact .inl (sequencerByte_storesNothing _ s)

/-! ### The frame -/

/-- RESET makes no transfer (R131): on either transport DC and the transfer answers stay. -/
theorem exec_reset_no_transfer {s t : State} (h : exec .reset s = .next t) :
    t.pinDc = s.pinDc ∧ t.busOracle = s.busOracle := by
  cases (exec_reset s).symm.trans h
  obtain ⟨-, he⟩ | ⟨-, -, he⟩ | ⟨-, -, he⟩ := operation_cases whenNotHalted resetDisplay s <;> rw [he]
  all_goals exact ⟨rfl, rfl⟩

/-- Settles O44: what is stored stays by `exec_storesNothing`, and the pins, the lifecycle, the fault and the trace are
those of the instruction's effect. -/
theorem frameOfTheInstructionsThatStoreNothing : Obligations.FrameOfTheInstructionsThatStoreNothing := by
  intro i s t hc hp h
  have hst := exec_storesNothing hc hp h
  obtain ⟨o, ht⟩ : ∃ o, State.StoresNothing { s with initOracle := o } t :=
    hst.elim (fun ht => ⟨s.initOracle, ht⟩) And.right
  have heff := (State.Quiet.refl s).exec_effect h
  obtain ⟨hcs, hbl, hrst, hdc⟩ := heff.pins
  obtain ⟨events, htrace, -⟩ := heff.trace_append
  have hpulse (hr : i ≠ .reset) (hi : i ≠ .init) : ¬Pulses i := not_or_intro hr hi
  refine ⟨fun a => by rw [ht.fb], fun n => by rw [ht.bm], ht.fblen, ht.bmw, ht.bmh, heff.transport_eq, hcs, hbl,
    ht.inputs, ht.replies, fun hr hi => hrst (hpulse hr hi), ?_, fun hi => ?_, ?_, fun hr hi => ?_, ?_,
    events, htrace⟩
  · rintro (hi2c | rfl)
    · exact hdc hi2c
    · exact (exec_reset_no_transfer h).1
  · exact (hst.resolve_right fun hinit => hi hinit.1).initOracle
  · rintro rfl
    exact (exec_reset_no_transfer h).2
  · exact (heff.halt_or_kept.imp_right fun hk => hk.2 (hpulse hr hi)).symm
  · exact (heff.halt_or_kept.imp_right And.left).symm

end Sys2Proof.Machine
end

section
/-! The transport (40_transport.md R110 to R117): the two primitives, a transfer that fails, and the operations CMD and
DATA. -/

namespace Sys2Proof.Machine

/-! ### One send -/

section
variable {s : State}

theorem sendOne_of_ok (h : s.transferOk 0 = true) (x : Bool × Byte) : sendOne x s = .running (s.sent x) := by
  rw [sendOne_eq, if_pos h]

theorem sendOne_of_fail (h : s.transferOk 0 = false) (x : Bool × Byte) : sendOne x s = .ended (s.sendFailed x) := by
  rw [sendOne_eq, if_neg (by simp [h])]

/-- On SPI a send drives DC (R110, R112). -/
theorem State.sent_spi (h : s.transport = .spi) (d : Bool) (b : Byte) : s.sent (d, b) =
    { s with
      pinDc := if d then .high else .low
      trace := s.trace ++ [.spiWr (if d then .high else .low) b]
      sp := s.sp + 1
      busOracle := s.busOracle.after 1 } := by
  cases d <;> simp [State.sent, sendDc, dcDriven, sendEvent, dataEvent, commandEvent, h]

/-- On I2C a send touches no pin (R111, R113). -/
theorem State.sent_i2c (h : s.transport = .i2c) (d : Bool) (b : Byte) : s.sent (d, b) =
    { s with
      trace := s.trace ++ [.i2cWr (if d then 0x40 else 0x00) b]
      sp := s.sp + 1
      busOracle := s.busOracle.after 1 } := by
  cases d <;> simp [State.sent, sendDc, dcDriven, sendEvent, dataEvent, commandEvent, h]

end

/-- Settles O21: the primitives are sends, and a send that succeeds is that of its transport. -/
theorem transportPrimitivesSendOneByte : Obligations.TransportPrimitivesSendOneByte := by
  intro b s hok
  rw [sendCommand_eq_sendOne, sendData_eq_sendOne, sendOne_of_ok hok, sendOne_of_ok hok]
  refine ⟨fun ht => ?_, fun ht => ?_⟩
  · rw [State.sent_spi ht, State.sent_spi ht]
    exact ⟨rfl, rfl⟩
  · rw [State.sent_i2c ht, State.sent_i2c ht]
    exact ⟨rfl, rfl⟩

/-! ### The transfer and the oracle (R115) -/

theorem transfer_of_ok {s : State} (h : s.transferOk 0 = true) (e : Event) :
    transfer e s = .running (State.append { s with busOracle := s.busOracle.after 1 } e) := by
  rw [transfer, if_pos h]

theorem transfer_of_fail {s : State} (h : s.transferOk 0 = false) (e : Event) : transfer e s =
    .ended (raise .transport (State.append { s with busOracle := s.busOracle.after 1 } .busFail)) := by
  rw [transfer, if_neg (by simp [h])]

/-- The oracle that passes `n` transfers and fails the next. -/
def Oracle.failingAfter (n : Nat) : Oracle := ⟨List.replicate n true ++ [false], 0⟩

theorem failsAt_failingAfter (s : State) (n : Nat) : TransferFailsAt { s with busOracle := .failingAfter n } n := by
  have hans (k : Nat) (hk : k < (Oracle.failingAfter n).queued.length) :
      State.transferOk { s with busOracle := .failingAfter n } k = (Oracle.failingAfter n).queued[k] :=
    Oracle.answer_queued _ _ hk
  refine ⟨fun k hk => ?_, ?_⟩
  · rw [hans k (by simp [Oracle.failingAfter]; omega)]
    simp [Oracle.failingAfter, List.getElem_append_left, hk]
  · rw [hans n (by simp [Oracle.failingAfter])]
    simp [Oracle.failingAfter]

/-- Settles O22: by what a transfer and a failed send do, with the oracle that fails at `n` for the last clause. -/
theorem failedTransferFaults : Obligations.FailedTransferFaults := by
  refine ⟨fun e s h => transfer_of_fail h e, fun e s h => transfer_of_ok h e, fun b s h => ?_, fun s n => ?_⟩
  · exact ⟨⟨_, sendOne_of_fail h (false, b), rfl⟩, ⟨_, sendOne_of_fail h (true, b), rfl⟩⟩
  · have hf := failsAt_failingAfter s n
    exact ⟨⟨_, hf⟩, ⟨_, hf.1⟩⟩

/-! ### The operations that send one byte -/

section
variable {s : State} (x : Bool × Byte)

/-- In READY the operation is its send, from `sp = 0`. -/
theorem operation_sendOne_of_ready (hs : s.ds = .ready) :
    operation whenReady (sendOne x) s = (sendOne x { s with sp := 0 }).close :=
  operation_of_permitted (by simp [hs]) (by simp [hs, whenReady])

theorem operation_sendOne_of_ok (hs : s.ds = .ready) (ht : s.transferOk 0 = true) :
    operation whenReady (sendOne x) s = finish (s.sent x) := by
  rw [operation_sendOne_of_ready x hs, sendOne_of_ok (s := { s with sp := 0 }) ht]
  rfl

theorem operation_sendOne_of_fail (hs : s.ds = .ready) (ht : s.transferOk 0 = false) :
    operation whenReady (sendOne x) s = s.sendFailed x := by
  rw [operation_sendOne_of_ready x hs, sendOne_of_fail (s := { s with sp := 0 }) ht]
  rfl

/-- SEQ comes before any event (R187). -/
theorem operation_sendOne_of_uninit (hs : s.ds = .uninit) : operation whenReady (sendOne x) s = raise .seq s :=
  operation_of_not_permitted (by simp [hs]) (by simp [hs, whenReady])

end

/-- Settles O23: CMD is the operation whose body sends its byte as a command. -/
theorem cmdSendsOneCommandByte : Obligations.CmdSendsOneCommandByte :=
  ⟨fun b => decode_of_encode (i := .cmd b) rfl,
    fun b _ hs ht => congrArg Host.Outcome.next (operation_sendOne_of_ok (false, b) hs ht),
    fun b _ hs ht => congrArg Host.Outcome.next (operation_sendOne_of_fail (false, b) hs ht),
    fun b _ hs => congrArg Host.Outcome.next (operation_sendOne_of_uninit (false, b) hs),
    fun _ _ hs => congrArg Host.Outcome.next (operation_of_halt hs)⟩

/-- Settles O24: DATA is the operation whose body sends its byte as data. -/
theorem dataSendsOneDataByte : Obligations.DataSendsOneDataByte :=
  ⟨fun b => decode_of_encode (i := .data b) rfl,
    fun b _ hs ht => congrArg Host.Outcome.next (operation_sendOne_of_ok (true, b) hs ht),
    fun b _ hs ht => congrArg Host.Outcome.next (operation_sendOne_of_fail (true, b) hs ht),
    fun b _ hs => congrArg Host.Outcome.next (operation_sendOne_of_uninit (true, b) hs),
    fun _ _ hs => congrArg Host.Outcome.next (operation_of_halt hs)⟩

end Sys2Proof.Machine
end

section
/-! The reset pulse, RESET and INIT (41_driver.md R130 to R132). -/

namespace Sys2Proof.Machine

/-- Settles O26: the pulse is its six events. -/
theorem resetPulseEvents : Obligations.ResetPulseEvents := hwReset_eq

/-- RESET outside HALT is the pulse and UNINIT (R131). -/
theorem operation_reset_of_not_halt {s : State} (hs : s.ds ≠ .halt) : operation whenNotHalted resetDisplay s =
    { s with pinRst := .high, trace := s.trace ++ resetPulse, ds := .uninit, ret := false, sp := 0 } := by
  rw [operation_of_permitted hs (whenNotHalted_of_ne_halt hs), resetDisplay, hwReset_eq]
  rfl

/-- Settles O27: the pulse outside HALT, the frame's refusal in HALT. -/
theorem resetPulsesAndLeavesUninit : Obligations.ResetPulsesAndLeavesUninit :=
  ⟨decode_of_encode (i := .reset) rfl,
    fun _ hs => congrArg Host.Outcome.next (operation_reset_of_not_halt hs),
    fun _ hs => congrArg Host.Outcome.next (operation_of_halt hs)⟩

/-! ### INIT -/

/-- A sequence of commands leaves DC low on SPI, unless it is empty (R110). -/
theorem sendsDc_commandSends (t : Transport) (seq : List Byte) (old : Level) :
    sendsDc t (commandSends seq) old = if seq = [] then old else dcDriven .low t old := by
  obtain rfl | ⟨l, b, rfl⟩ := List.eq_nil_or_concat seq
  · rfl
  · have hc : commandSends (l.concat b) = commandSends l ++ [(false, b)] := by simp [commandSends]
    rw [hc, sendsDc_concat, if_neg (by simp)]
    rfl

/-- The state after the commands of a sequence (R132). -/
theorem sentAll_commandSends (s : State) (seq : List Byte) : s.sentAll (commandSends seq) =
    { s with
      pinDc := if seq = [] then s.pinDc else dcDriven .low s.transport s.pinDc
      trace := s.trace ++ seq.map (commandEvent s.transport)
      sp := s.sp + seq.length
      busOracle := s.busOracle.after seq.length } := by
  simp only [State.sentAll, sendsDc_commandSends, commandSends_events, commandSends_length]

/-- The state after a sequence of commands whose transfer at position `n` fails (R132, R115). -/
theorem sendFailed_commandSends (s : State) (seq : List Byte) {n : Nat} (hn : n < (commandSends seq).length) :
    (s.sentAll ((commandSends seq).take n)).sendFailed (commandSends seq)[n] =
    { s with
      pinDc := dcDriven .low s.transport s.pinDc
      trace := s.trace ++ (seq.take n).map (commandEvent s.transport) ++ [.busFail]
      sp := 0
      ds := .halt
      ret := true
      fault := .transport
      busOracle := s.busOracle.after (n + 1) } := by
  have hx : (commandSends seq)[n] = (false, seq[n]'(by simpa using hn)) := by simp [commandSends]
  have hlen : (seq.take n).length = n := List.length_take_of_le (by simpa using hn.le)
  have htake : (commandSends seq).take n = commandSends (seq.take n) := by simp [commandSends, List.map_take]
  have hlow (b : Byte) : sendDc s.transport (false, b) s.pinDc = dcDriven .low s.transport s.pinDc := rfl
  simp only [State.sentAll, State.sendFailed, sendDc_sendsDc, hx, hlow, htake, commandSends_events,
    commandSends_length, hlen, Oracle.after_after]

section
variable {s : State} (hs : s.ds = .uninit)
include hs

/-- In UNINIT the operation is INIT's body, from `sp = 0`. -/
theorem operation_init_of_uninit (seq : List Byte) :
    operation whenUninit (initDisplay seq) s = (initDisplay seq { s with sp := 0 }).close :=
  operation_of_permitted (by simp [hs]) (whenUninit_iff.mpr hs)

/-- INIT that ends OK: the pulse, the sequence as commands, and READY (R132). -/
theorem operation_init_of_ok (seq : List Byte) (hi : s.initOk = true) (h : TransfersOk s seq.length) :
    operation whenUninit (initDisplay seq) s =
    { s with
      pinRst := .high
      pinDc := if seq = [] then s.pinDc else dcDriven .low s.transport s.pinDc
      trace := s.trace ++ resetPulse ++ seq.map (commandEvent s.transport)
      ds := .ready
      ret := false
      sp := 0
      initOracle := s.initOracle.after 1
      busOracle := s.busOracle.after seq.length } := by
  rw [operation_init_of_uninit hs]
  obtain ⟨hn, -⟩ | ⟨-, -, hr⟩ | ⟨-, n, hn, hf, -⟩ := initDisplay_cases seq { s with sp := 0 }
  · exact absurd (hi.symm.trans hn) nofun
  · rw [hr, sentAll_commandSends, State.pulsed, hwReset_eq]
    rfl
  · exact absurd h (hf.not_ok (by simpa using hn))

/-- INIT whose transfer at position `n` fails: the pulse, the commands before it, BusFail and the fault (R132). -/
theorem operation_init_of_failsAt {seq : List Byte} {n : Nat} (hi : s.initOk = true) (hn : n < seq.length)
    (h : TransferFailsAt s n) : operation whenUninit (initDisplay seq) s =
    { s with
      pinRst := .high
      pinDc := dcDriven .low s.transport s.pinDc
      trace := s.trace ++ resetPulse ++ (seq.take n).map (commandEvent s.transport) ++ [.busFail]
      ds := .halt
      fault := .transport
      ret := true
      sp := 0
      initOracle := s.initOracle.after 1
      busOracle := s.busOracle.after (n + 1) } := by
  rw [operation_init_of_uninit hs]
  obtain ⟨hn', -⟩ | ⟨-, hok, -⟩ | ⟨-, m, hm, hf, hr⟩ := initDisplay_cases seq { s with sp := 0 }
  · exact absurd (hi.symm.trans hn') nofun
  · exact absurd hok (h.not_ok hn)
  · cases h.unique hf
    rw [hr, sendFailed_commandSends, State.pulsed, hwReset_eq]
    rfl

end

/-- Settles O28: each outcome of INIT for any sequence, and the first of them at `Config.initSeq`. -/
theorem initPulsesAndSendsItsSequence : Obligations.InitPulsesAndSendsItsSequence := by
  refine ⟨decode_of_encode (i := .init) rfl, exec_init, fun s hs hi h => ?_, fun seq s =>
    ⟨fun hs => operation_init_of_ok hs seq, operation_init_of_not_initOk seq,
      fun n hs hi => operation_init_of_failsAt hs hi, fun hs => ?_⟩⟩
  · rw [exec_init, operation_init_of_ok hs _ hi h]
  · exact operation_of_not_permitted (by simp [hs]) (by simp [hs, whenUninit])

end Sys2Proof.Machine
end

section
/-! SHOW and CLEAR (41_driver.md R134 to R139): both are one `ShowPages()` closed by the frame, of which the events are
those of R137. -/

namespace Sys2Proof.Machine

/-! ### The commands and the data of a frame -/

theorem pageEvents_eq (t : Transport) (fb : List Host.Cell) (page : Nat) :
    pageEvents t fb page = pageCommands t page ++ pageData t fb page := rfl

theorem dataEvent_ne_commandEvent (t : Transport) (b c : Byte) : dataEvent t b ≠ commandEvent t c := by
  cases t <;> simp [dataEvent, commandEvent]

theorem dataEvent_inj {t : Transport} {b c : Byte} : dataEvent t b = dataEvent t c ↔ b = c := by
  cases t <;> simp [dataEvent]

@[simp] theorem isCommand_commandEvent (t : Transport) (b : Byte) : (commandEvent t b).isCommand = true := by
  cases t <;> rfl

@[simp] theorem isCommand_dataEvent (t : Transport) (b : Byte) : (dataEvent t b).isCommand = false := by
  cases t <;> rfl

@[simp] theorem isData_commandEvent (t : Transport) (b : Byte) : (commandEvent t b).isData = false := by
  cases t <;> rfl

@[simp] theorem isData_dataEvent (t : Transport) (b : Byte) : (dataEvent t b).isData = true := by
  cases t <;> rfl

theorem countP_isCommand_pageEvents (t : Transport) (fb : List Host.Cell) (page : Nat) :
    (pageEvents t fb page).countP Event.isCommand = 3 := by
  simp [pageEvents_eq, pageCommands, pageData, List.countP_map, Function.comp_def]

theorem countP_isData_pageEvents (t : Transport) (fb : List Host.Cell) (page : Nat) :
    (pageEvents t fb page).countP Event.isData = 128 := by
  simp [pageEvents_eq, pageCommands, pageData, List.countP_map, Function.comp_def]

/-- A frame holds eight times the events of a kind that a page holds. -/
theorem countP_frameEvents {p : Event → Bool} {m : Nat} {t : Transport} {fb : List Host.Cell}
    (h : ∀ page, (pageEvents t fb page).countP p = m) : (frameEvents t fb).countP p = 8 * m := by
  simp only [frameEvents, List.countP_flatMap, Function.comp_def, h, List.map_const', List.length_range,
    List.sum_replicate, smul_eq_mul]

/-- FB byte `a` stands at its position of the frame (R137). -/
theorem showEvent_byte (t : Transport) (fb : List Host.Cell) (a : Nat) :
    showEvent t fb (131 * (a / 128) + 3 + a % 128) = dataEvent t (~~~fbByte fb a) := by
  rw [showEvent_data t fb _ (Nat.mod_lt a (by omega)), Nat.mod_add_div]

/-- The events of a whole frame are those of R137. -/
theorem isFrame_frameEvents (t : Transport) (fb : List Host.Cell) : IsFrame t fb (frameEvents t fb) where
  length_eq := frameEvents_length t fb
  event_at _ hn := frameEvents_getElem? t fb hn
  byte_at a ha := by rw [frameEvents_getElem? t fb (by omega), showEvent_byte]
  commands := by rw [← List.countP_eq_length_filter, countP_frameEvents (countP_isCommand_pageEvents t fb)]
  data := by rw [← List.countP_eq_length_filter, countP_frameEvents (countP_isData_pageEvents t fb)]

/-- Every position of a frame holds a command, the same whatever the framebuffer, or the data byte of the one FB byte
whose position it is. -/
theorem showEvent_cases (t : Transport) {n : Nat} (hn : n < 1048) :
    (∃ b, ∀ fb, showEvent t fb n = commandEvent t b) ∨ ∃ a, a < 1024 ∧ n = 131 * (a / 128) + 3 + a % 128 := by
  by_cases h : n % 131 < 3
  · left
    obtain h0 | h1 | h2 : n % 131 = 0 ∨ n % 131 = 1 ∨ n % 131 = 2 := by omega
    · exact ⟨_, fun fb => by rw [showEvent, if_pos h0]⟩
    · exact ⟨_, fun fb => by rw [showEvent, if_neg (by omega), if_pos h1]⟩
    · exact ⟨_, fun fb => by rw [showEvent, if_neg (by omega), if_neg (by omega), if_pos h2]⟩
  · exact .inr ⟨128 * (n / 131) + (n % 131 - 3), by omega, by omega⟩

/-- The positions at which the frames of two framebuffers differ are those of the bytes that differ (R138). -/
theorem showEvent_ne_iff {t : Transport} {fb fb' : List Host.Cell} {n : Nat} (hn : n < 1048) :
    showEvent t fb n ≠ showEvent t fb' n ↔
      ∃ a, a < 1024 ∧ n = 131 * (a / 128) + 3 + a % 128 ∧ fbByte fb a ≠ fbByte fb' a := by
  obtain ⟨b, hb⟩ | ⟨a, ha, rfl⟩ := showEvent_cases t hn
  · rw [hb fb, hb fb']
    refine iff_of_false (not_not.mpr rfl) ?_
    rintro ⟨a, -, rfl, -⟩
    exact dataEvent_ne_commandEvent t _ b ((showEvent_byte t fb a).symm.trans (hb fb))
  · rw [showEvent_byte, showEvent_byte, Ne, dataEvent_inj, BitVec.not_inj]
    constructor
    · exact fun h => ⟨a, ha, rfl, h⟩
    · rintro ⟨c, -, hc, h⟩
      have hac : a = c := by omega
      exact hac ▸ h

/-- The frame depends on the transport and the FB bytes alone (R138). -/
theorem frameEvents_congr {t : Transport} {fb fb' : List Host.Cell} (h : ∀ a, a < 1024 → fbByte fb a = fbByte fb' a) :
    frameEvents t fb = frameEvents t fb' := by
  rw [frameEvents_eq, frameEvents_eq]
  refine List.map_congr_left fun n hn => by_contra fun hne => ?_
  obtain ⟨a, ha, -, hab⟩ := (showEvent_ne_iff (List.mem_range.mp hn)).mp hne
  exact hab (h a ha)

/-- Every data byte of a blank framebuffer's frame is `0x00` (R136). -/
theorem eq_zero_of_dataEvent_mem {t : Transport} {fb : List Host.Cell} {b : Byte}
    (hfb : ∀ a, a < 1024 → fbByte fb a = 0xFF) (hb : dataEvent t b ∈ frameEvents t fb) : b = 0x00 := by
  rw [frameEvents_eq] at hb
  obtain ⟨n, hn, he⟩ := List.mem_map.mp hb
  obtain ⟨c, hc⟩ | ⟨a, ha, rfl⟩ := showEvent_cases t (List.mem_range.mp hn)
  · exact absurd (he.symm.trans (hc fb)) (dataEvent_ne_commandEvent t b c)
  · rw [showEvent_byte, dataEvent_inj, hfb a ha] at he
    exact he.symm

/-! ### A frame sent as an operation's body -/

/-- The state after an operation whose body is a complete `ShowPages()` (R134, R186). -/
def State.shown (s : State) : State :=
  { s with
    pinDc := dcDriven .high s.transport s.pinDc
    trace := s.trace ++ frameEvents s.transport s.fb
    ret := false
    sp := 0
    busOracle := s.busOracle.after 1048 }

/-- What such an operation appends is the frame of the buffer it leaves. -/
theorem State.shown_isFrame (s : State) : s.shown.trace = s.trace ++ frameEvents s.transport s.fb ∧ s.shown.sp = 0 ∧
    IsFrame s.transport s.shown.fb (frameEvents s.transport s.fb) := ⟨rfl, rfl, isFrame_frameEvents _ _⟩

/-- The state after one whose transfer at position `n` fails (R139). -/
def State.showFailed (s : State) (n : Nat) : State :=
  { s with
    pinDc := showDc s.transport n s.pinDc
    trace := s.trace ++ (frameEvents s.transport s.fb).take n ++ [.busFail]
    ds := .halt
    fault := .transport
    ret := true
    sp := 0
    busOracle := s.busOracle.after (n + 1) }

section
variable {s : State}

theorem close_showPages_of_ok (h : TransfersOk s 1048) : (showPages { s with sp := 0 }).close = s.shown := by
  rw [showPages_of_ok (s := { s with sp := 0 }) h, sentAll_showSends]
  rfl

theorem State.transferOk_shown (k : Nat) : s.shown.transferOk k = s.transferOk (1048 + k) :=
  Oracle.answer_after ..

theorem close_showPages_of_failsAt {n : Nat} (hn : n < 1048) (h : TransferFailsAt s n) :
    (showPages { s with sp := 0 }).close = s.showFailed n := by
  obtain ⟨hok, -⟩ | ⟨m, -, hf, hr⟩ := showPages_cases { s with sp := 0 }
  · exact absurd hok (h.not_ok hn)
  · cases h.unique hf
    rw [hr]
    rfl

/-- SHOW and CLEAR take SEQ in UNINIT (R187). -/
theorem operation_whenReady_of_uninit (hs : s.ds = .uninit) (body : State → Run) :
    operation whenReady body s = raise .seq s :=
  operation_of_not_permitted (by simp [hs]) (by simp [hs, whenReady])

end

section
variable {s : State} (hs : s.ds = .ready)
include hs

theorem operation_whenReady_of_ready (body : State → Run) :
    operation whenReady body s = (body { s with sp := 0 }).close :=
  operation_of_permitted (by simp [hs]) (by simp [hs, whenReady])

/-- SHOW that completes (R135). -/
theorem exec_showFrame_shown (hl : s.fblen = 1024) (h : TransfersOk s 1048) :
    exec .showFrame s = .next s.shown := by
  rw [exec_showFrame, operation_whenReady_of_ready hs, showBuffer, if_pos hl, close_showPages_of_ok h]

/-- SHOW whose transfer at position `n` fails (R135, R139). -/
theorem exec_showFrame_showFailed (hl : s.fblen = 1024) {n : Nat} (hn : n < 1048) (h : TransferFailsAt s n) :
    exec .showFrame s = .next (s.showFailed n) := by
  rw [exec_showFrame, operation_whenReady_of_ready hs, showBuffer, if_pos hl, close_showPages_of_failsAt hn h]

/-- SHOW of another length (R135). -/
theorem exec_showFrame_of_length (hl : s.fblen ≠ 1024) : exec .showFrame s = .next (raise .length s) := by
  rw [exec_showFrame, operation_whenReady_of_ready hs, showBuffer, if_neg hl]
  rfl

end

/-- Settles O30: SHOW's completion, its two refusals and its failure, and the data of a blank frame. -/
theorem showSendsEveryPage : Obligations.ShowSendsEveryPage :=
  ⟨decode_of_encode (i := .showFrame) rfl,
    fun _ hs hl h => exec_showFrame_shown hs hl h,
    fun _ hs hl => exec_showFrame_of_length hs hl,
    fun _ hs => congrArg Host.Outcome.next (operation_whenReady_of_uninit hs showBuffer),
    fun _ _ hs hl hn h => exec_showFrame_showFailed hs hl hn h,
    fun _ _ _ hfb hb => eq_zero_of_dataEvent_mem hfb hb⟩

/-- Settles O32: both SHOWs send the frame of their own buffer, and where frames differ is `showEvent_ne_iff`. -/
theorem frameDiffersOnlyWhereTheBytesDo : Obligations.FrameDiffersOnlyWhereTheBytesDo := by
  intro s s' hs hs' hl hl' h h' ht
  refine ⟨s.shown, s'.shown, frameEvents s.transport s.fb, frameEvents s.transport s'.fb,
    exec_showFrame_shown hs hl h, exec_showFrame_shown hs' hl' h', rfl, by rw [ht]; rfl, frameEvents_length ..,
    frameEvents_length .., frameEvents_congr, fun a ha hne hother n hn => ?_⟩
  rw [frameEvents_getElem? _ _ hn, frameEvents_getElem? _ _ hn, Ne, Option.some_inj, ← Ne, showEvent_ne_iff hn]
  constructor
  · rintro ⟨c, hc, rfl, hcne⟩
    have hca : c = a := by_contra fun hca => hcne (hother c hc hca)
    rw [hca]
  · exact fun hna => ⟨a, ha, hna, hne⟩

/-- Settles O34: a SHOW leaves the lifecycle, FB and FBLEN, and answers for the next 1048 transfers. -/
theorem showTwiceRepeatsTheFrame : Obligations.ShowTwiceRepeatsTheFrame := by
  intro s t u hs hl h ht hu
  cases (exec_showFrame_shown hs hl fun k hk => h k (by omega)).symm.trans ht
  have hok : TransfersOk s.shown 1048 := fun k hk => by
    rw [State.transferOk_shown]
    exact h (1048 + k) (by omega)
  cases (exec_showFrame_shown (s := s.shown) hs hl hok).symm.trans hu
  exact ⟨rfl, rfl, hs⟩

/-! ### CLEAR -/

/-- The state CLEAR sends the frame of: FB blank and FBLEN full (R136). -/
def State.blanked (s : State) : State := { s with fb := blankFB, fblen := 1024 }

section
variable {s : State} (hs : s.ds = .ready)
include hs

/-- In READY CLEAR is `ShowPages()` of the blank buffer (R136). -/
theorem operation_clear_of_ready :
    operation whenReady clearDisplay s = (showPages { s.blanked with sp := 0 }).close := by
  rw [operation_whenReady_of_ready hs, clearDisplay, State.blanked]

/-- CLEAR that completes (R136). -/
theorem exec_clear_shown (h : TransfersOk s 1048) : exec .clear s = .next s.blanked.shown := by
  rw [exec_clear, operation_clear_of_ready hs, close_showPages_of_ok (s := s.blanked) h]

/-- CLEAR whose transfer at position `n` fails (R136). -/
theorem exec_clear_showFailed {n : Nat} (hn : n < 1048) (h : TransferFailsAt s n) :
    exec .clear s = .next (s.blanked.showFailed n) := by
  rw [exec_clear, operation_clear_of_ready hs, close_showPages_of_failsAt (s := s.blanked) hn h]

end

/-- Everything CLEAR can do. -/
theorem exec_clear_cases {s t : State} (h : exec .clear s = .next t) :
    (s.ds = .halt ∧ t = refuseHalted s) ∨ (s.ds = .uninit ∧ t = raise .seq s) ∨
    (s.ds = .ready ∧ (t = s.blanked.shown ∨ ∃ n, t = s.blanked.showFailed n)) := by
  cases hs : s.ds with
  | halt =>
    rw [exec_clear, operation_of_halt hs] at h
    cases h
    exact .inl ⟨rfl, rfl⟩
  | uninit =>
    rw [exec_clear, operation_whenReady_of_uninit hs] at h
    cases h
    exact .inr (.inl ⟨rfl, rfl⟩)
  | ready =>
    refine .inr (.inr ⟨rfl, ?_⟩)
    obtain hok | ⟨n, hn, hf⟩ := transfersOk_or_failsAt s 1048
    · rw [exec_clear_shown hs hok] at h
      exact .inl (Host.Outcome.next.inj h).symm
    · rw [exec_clear_showFailed hs hn hf] at h
      exact .inr ⟨n, (Host.Outcome.next.inj h).symm⟩

/-- CLEAR has no length to check (R136). -/
theorem exec_clear_fault_ne_length {s t : State} (hs : s.fault = .none) (h : exec .clear s = .next t) :
    t.fault ≠ .length := by
  obtain ⟨-, rfl⟩ | ⟨-, rfl⟩ | ⟨-, rfl | ⟨n, rfl⟩⟩ := exec_clear_cases h
  · simp [hs]
  · simp
  · simp [State.shown, State.blanked, hs]
  · simp [State.showFailed]

/-- Settles O33: CLEAR's completion, failure and refusal, and the blank buffer's bytes and data. -/
theorem clearBlanksAndSends : Obligations.ClearBlanksAndSends :=
  ⟨decode_of_encode (i := .clear) rfl,
    fun _ hs h => by simpa only [State.shown, State.blanked] using exec_clear_shown hs h,
    fun _ _ hs hn h => by simpa only [State.showFailed, State.blanked] using exec_clear_showFailed hs hn h,
    fun _ hs => congrArg Host.Outcome.next (operation_whenReady_of_uninit hs clearDisplay),
    fun _ ha => fbByte_blankFB ha,
    fun _ _ hb => eq_zero_of_dataEvent_mem (fun _ ha => fbByte_blankFB ha) hb,
    fun _ _ hs h => exec_clear_fault_ne_length hs h⟩

/-- Settles O31: `ShowPages()`, SHOW and CLEAR each append the frame of the buffer they send. -/
theorem frameEventAtEachPosition : Obligations.FrameEventAtEachPosition := by
  intro s h
  refine ⟨⟨_, frameEvents s.transport s.fb, showPages_of_ok h, ?_, ?_, isFrame_frameEvents _ _⟩, fun hs hl => ?_,
    fun hs => ?_⟩
  · rw [sentAll_showSends]
  · rw [sentAll_showSends]
  · exact ⟨_, _, exec_showFrame_shown hs hl h, s.shown_isFrame⟩
  · exact ⟨_, _, exec_clear_shown hs h, s.blanked.shown_isFrame⟩

end Sys2Proof.Machine
end

section
/-! CLEAR and PACK as the two operations that store (41_driver.md R136; 42_packer.md R160, R166, R167): what they leave
unchanged, and a CLEAR after a PACK. -/

namespace Sys2Proof.Machine

/-! ### Filling the framebuffer -/

/-- How CLEAR and PACK can end: refused or faulted before the fill, having stored nothing; or having stored nothing but a
framebuffer in canonical form and its length. -/
inductive State.FillsFrom (s : State) : State → Prop
  | refused {t : State} : s.StoresNothing t → (s.ds = .halt ∨ t.fault = .seq ∨ t.fault = .shape) → s.FillsFrom t
  | filled {t : State} {fb : List Host.Cell} : Memory.wf Config.fbSize fb = true → s.ds ≠ .halt →
      (t.fault = s.fault ∨ t.fault = .transport) → State.StoresNothing { s with fb := fb, fblen := 1024 } t →
      s.FillsFrom t

theorem exec_clear_fillsFrom {s t : State} (h : exec .clear s = .next t) : s.FillsFrom t := by
  have hfb := wf_blankFB
  obtain ⟨hs, rfl⟩ | ⟨-, rfl⟩ | ⟨hs, ht⟩ := exec_clear_cases h
  · exact .refused rfl (.inl hs)
  · exact .refused rfl (.inr (.inl rfl))
  · have hd : s.ds ≠ .halt := by simp [hs]
    rw [State.blanked] at ht
    generalize blankFB = fb at hfb ht
    obtain rfl | ⟨n, rfl⟩ := ht
    · exact .filled hfb hd (.inl rfl) rfl
    · exact .filled hfb hd (.inr rfl) rfl

/-- Everything PACK can do. -/
theorem exec_pack_cases {s t : State} (h : exec .pack s = .next t) :
    (s.ds = .halt ∧ t = refuseHalted s) ∨ (s.ds ≠ .halt ∧ t = raise .shape s) ∨
    (s.ds ≠ .halt ∧ ∃ fb, Memory.wf Config.fbSize fb = true ∧
      t = { s with fb := fb, fblen := 1024, ret := false, sp := 0 }) := by
  by_cases hs : s.ds = .halt
  · rw [exec_pack, operation_of_halt hs] at h
    exact .inl ⟨hs, (Host.Outcome.next.inj h).symm⟩
  · obtain ⟨hw, hh, -⟩ | ⟨hw, hh, -⟩ | ⟨-, -, hr⟩ := packBitmap_cases { s with sp := 0 }
    · rw [exec_pack_native hs hw hh] at h
      exact .inr (.inr ⟨hs, _, wf_packNative _, (Host.Outcome.next.inj h).symm⟩)
    · rw [exec_pack_rotated hs hw hh] at h
      exact .inr (.inr ⟨hs, _, wf_packRotated _, (Host.Outcome.next.inj h).symm⟩)
    · rw [exec_pack, operation_of_permitted hs (whenNotHalted_of_ne_halt hs), hr] at h
      exact .inr (.inl ⟨hs, (Host.Outcome.next.inj h).symm⟩)

theorem exec_pack_fillsFrom {s t : State} (h : exec .pack s = .next t) : s.FillsFrom t := by
  obtain ⟨hs, rfl⟩ | ⟨-, rfl⟩ | ⟨hs, fb, hfb, rfl⟩ := exec_pack_cases h
  · exact .refused rfl (.inl hs)
  · exact .refused rfl (.inr (.inr rfl))
  · exact .filled hfb hs (.inl rfl) rfl

/-- PACK makes no transfer and drives no pin (R167). -/
theorem exec_pack_no_transfer {s t : State} (h : exec .pack s = .next t) :
    t.pinDc = s.pinDc ∧ t.trace = s.trace ∧ t.busOracle = s.busOracle := by
  obtain ⟨-, rfl⟩ | ⟨-, rfl⟩ | ⟨-, fb, -, rfl⟩ := exec_pack_cases h <;> exact ⟨rfl, rfl, rfl⟩

section
variable {s t : State} (h : s.FillsFrom t)
include h

/-- A fill stores only FB and FBLEN. -/
theorem State.FillsFrom.storesNothing_else : ∃ fb v, State.StoresNothing { s with fb := fb, fblen := v } t := by
  cases h with
  | refused ht _ => exact ⟨s.fb, s.fblen, ht⟩
  | filled _ _ _ ht => exact ⟨_, _, ht⟩

/-- Where no fill was reached FB and FBLEN stay. -/
theorem State.FillsFrom.of_refused (hr : s.ds = .halt ∨ t.fault = .seq ∨ t.fault = .shape)
    (hs : s.fault = .none ∨ s.ds = .halt) : t.fb = s.fb ∧ t.fblen = s.fblen := by
  cases h with
  | refused ht _ => exact ⟨ht.fb, ht.fblen⟩
  | filled _ hd hf _ =>
    have hn : s.fault = .none := hs.resolve_right hd
    obtain hf | hf := hf <;> simp [hd, hf, hn] at hr

/-- Where the fill was reached FBLEN is 1024, and beyond FB's 1024 bytes every read is as before. -/
theorem State.FillsFrom.of_filled (hd : s.ds ≠ .halt) (hseq : t.fault ≠ .seq) (hshape : t.fault ≠ .shape)
    (hs : Memory.wf Config.fbSize s.fb = true) :
    t.fblen = 1024 ∧ ∀ a, Config.fbSize ≤ a → fbByte t.fb a = fbByte s.fb a := by
  cases h with
  | refused _ hr => simp [hd, hseq, hshape] at hr
  | filled hfb _ _ ht =>
    refine ⟨ht.fblen, fun a ha => ?_⟩
    rw [ht.fb, fbByte, fbByte, Memory.read_eq_none_of_ge hfb ha, Memory.read_eq_none_of_ge hs ha]

end

/-- Settles O45: the two operations store what a fill stores, and the pins are those of the instruction's effect. -/
theorem frameOfClearAndPack : Obligations.FrameOfClearAndPack := by
  intro i s t hi h
  have heff := (State.Quiet.refl s).exec_effect h
  obtain ⟨hcs, hbl, hrst, -⟩ := heff.pins
  have hfill : s.FillsFrom t := by
    obtain rfl | rfl := hi
    · exact exec_clear_fillsFrom h
    · exact exec_pack_fillsFrom h
  have hpulse : ¬Pulses i := by
    obtain rfl | rfl := hi <;> simp [Pulses]
  obtain ⟨fb, v, ht⟩ := hfill.storesNothing_else
  refine ⟨fun n => by rw [ht.bm], ht.bmw, ht.bmh, heff.transport_eq, hrst hpulse, hcs, hbl, ht.inputs, ht.replies,
    ht.initOracle, ?_, fun hr hs => ?_, hfill.of_filled⟩
  · rintro rfl
    exact exec_pack_no_transfer h
  · obtain ⟨hfb, hlen⟩ := hfill.of_refused hr hs
    exact ⟨fun a => by rw [hfb], hlen⟩

/-! ### CLEAR after PACK -/

/-- An all-ink bitmap packs to `0x00` everywhere (R164). -/
theorem packNative_of_ink {q : Nat → Nat → Pixel} (hq : ∀ x y, x < 128 → y < 64 → q x y = .ink) {a : Nat}
    (ha : a < 1024) : fbByte (packNative q) a = 0x00 := by
  refine BitVec.eq_of_getLsbD_eq fun k hk => ?_
  have hbit := packNative_bit q (Nat.mod_lt a (by omega : 128 > 0)) (by omega : a / 128 < 8) hk
  rw [Nat.mod_add_div, hq _ _ (by omega) (by omega)] at hbit
  simpa [Pixel.bit] using hbit

theorem State.shown_fb (s : State) : s.shown.fb = s.fb := rfl

theorem fbByte_blanked (s : State) {a : Nat} (ha : a < 1024) : fbByte s.blanked.fb a = 0xFF := by
  rw [State.blanked, fbByte_blankFB ha]

/-- Settles O43: a CLEAR that completes leaves the blank buffer, whatever was packed before. -/
theorem packThenClearIsBlank : Obligations.PackThenClearIsBlank := by
  intro s t u v hs hw hh hok hink hpack hu hv
  have hzero := fun a (ha : a < 1024) => packNative_of_ink hink ha
  rw [exec_pack_native (by simp [hs]) hw hh] at hpack
  generalize packNative (pix s) = fb at hpack hzero
  cases hpack
  cases (exec_clear_shown (s := { s with fb := fb, fblen := 1024, ret := false, sp := 0 }) hs hok).symm.trans hu
  cases (exec_clear_shown hs hok).symm.trans hv
  exact ⟨hzero, rfl, rfl, fun a ha => by rw [State.shown_fb, fbByte_blanked _ ha]⟩

end Sys2Proof.Machine
end

section
/-! PACK on its own (42_packer.md R160 to R169): which bits it clears and which bytes it leaves, in both shapes; that
neither the order of its loops nor anything but the bitmap decides the buffer; and its SHAPE fault. -/

namespace Sys2Proof.Machine

/-! ### The bits and bytes of a painted buffer -/

section
variable (p : Nat → Nat → Pixel) (index : Nat → Nat → Nat) (visits : List (Nat × Nat)) {a k : Nat}

/-- A bit is cleared exactly where the ink of a visited pixel falls on it (R163). -/
theorem pack_bit_cleared (ha : a < Config.fbSize) (hk : k < 8) :
    (fbByte (paint p index visits blankFB) a).getLsbD k = false ↔
      ∃ v ∈ visits, p v.1 v.2 = .ink ∧ index v.1 v.2 = a ∧ pixelBit v.2 = k := by
  rw [← Bool.not_eq_true, pack_bit p index visits ha hk]
  simp only [ne_eq, not_forall, not_not, exists_prop]

/-- The cleared bits of a buffer painted over a whole bitmap. -/
theorem pack_grid_bit_cleared (w h : Nat) (ha : a < Config.fbSize) (hk : k < 8) :
    (fbByte (paint p index (grid w h) blankFB) a).getLsbD k = false ↔
      ∃ x y, x < w ∧ y < h ∧ p x y = .ink ∧ index x y = a ∧ pixelBit y = k := by
  simp only [pack_bit_cleared p index _ ha hk, Prod.exists, mem_grid, and_assoc]

variable {visits}

/-- A byte no visited ink falls on stays blank. -/
theorem fbByte_pack_of_no_ink (ha : a < Config.fbSize)
    (h : ∀ v ∈ visits, p v.1 v.2 = .ink → index v.1 v.2 ≠ a) :
    fbByte (paint p index visits blankFB) a = 0xFF := by
  rw [← fbByte_blankFB ha]
  refine BitVec.eq_of_getLsbD_eq fun j hj => Bool.eq_iff_iff.mpr ?_
  rw [paint_bit p index visits blankFB a hj]
  exact and_iff_left fun v hv hi ha => absurd ha (h v hv hi)

/-- A byte on which visited ink falls, and always at bit `k`, is blank but for that bit. -/
theorem fbByte_pack_of_ink_at_bit (ha : a < Config.fbSize) (hk : k < 8)
    (hink : ∃ v ∈ visits, p v.1 v.2 = .ink ∧ index v.1 v.2 = a)
    (hbit : ∀ v ∈ visits, index v.1 v.2 = a → pixelBit v.2 = k) :
    fbByte (paint p index visits blankFB) a = 0xFF &&& ~~~(1#8 <<< k) := by
  obtain ⟨u, hu, hui, hua⟩ := hink
  rw [← fbByte_blankFB ha]
  refine BitVec.eq_of_getLsbD_eq fun j hj => Bool.eq_iff_iff.mpr ?_
  rw [paint_bit p index visits blankFB a hj, getLsbD_clear _ hj hk, Bool.and_eq_true, Bool.not_eq_true',
    decide_eq_false_iff_not]
  refine and_congr_right fun _ => ⟨fun h hjk => ?_, fun h v hv _ hva hvj => ?_⟩
  · exact h u hu hui hua ((hbit u hu hua).trans hjk.symm)
  · exact h (hvj.symm.trans (hbit v hv hva))

/-- R169: clears commute and repeat, so only the set of the pixels visited matters. -/
theorem paint_eq_of_same_visits {visits' : List (Nat × Nat)} (h : ∀ v, v ∈ visits ↔ v ∈ visits')
    (hin : ∀ v ∈ visits', index v.1 v.2 < Config.fbSize) :
    paint p index visits blankFB = paint p index visits' blankFB := by
  refine fb_ext (wf_paint _ _ _ _ (fun v hv => hin v ((h v).mp hv)) wf_blankFB) (wf_paint _ _ _ _ hin wf_blankFB)
    (fun _ => read_pack_isSome p index visits) (fun _ => read_pack_isSome p index visits') fun a ha => ?_
  refine BitVec.eq_of_getLsbD_eq fun j hj => Bool.eq_iff_iff.mpr ?_
  simp only [pack_bit p index _ ha hj, h]

end

/-! ### The two mappings -/

/-- R161: the index of the native shape. -/
theorem nativeIndex_eq (x y : Nat) : nativeIndex x y = x + 128 * (y / 8) := by
  rw [nativeIndex, Config.width, Nat.mul_comm]

/-- R162: the index of the rotated shape. -/
theorem rotatedIndex_eq (x y : Nat) : rotatedIndex x y = y + 128 * ((63 - x) / 8) := by
  simp only [rotatedIndex, Config.width, Config.height]
  omega

/-- R165: the pixels that fall on the byte of column `c` of page `p` are eight of one row. -/
theorem rotatedIndex_eq_iff {x y c p : Nat} (hx : x < 64) (hy : y < 128) (hc : c < 128) (hp : p < 8) :
    rotatedIndex x y = c + 128 * p ↔ y = c ∧ 56 - 8 * p ≤ x ∧ x ≤ 63 - 8 * p := by
  rw [rotatedIndex_eq]
  omega

section
variable (q : Nat → Nat → Pixel) {a k : Nat}

/-- R161: the bits the ink of a native bitmap clears. -/
theorem packNative_bit_cleared (ha : a < 1024) (hk : k < 8) : (fbByte (packNative q) a).getLsbD k = false ↔
    ∃ x y, x < 128 ∧ y < 64 ∧ q x y = .ink ∧ a = x + 128 * (y / 8) ∧ k = y % 8 := by
  rw [packNative, pack_grid_bit_cleared q nativeIndex _ _ ha hk]
  simp only [Config.width, Config.height, nativeIndex_eq, pixelBit, eq_comm]

/-- R162: the bits the ink of a rotated bitmap clears. -/
theorem packRotated_bit_cleared (ha : a < 1024) (hk : k < 8) : (fbByte (packRotated q) a).getLsbD k = false ↔
    ∃ x y, x < 64 ∧ y < 128 ∧ q x y = .ink ∧ a = y + 128 * ((63 - x) / 8) ∧ k = y % 8 := by
  rw [packRotated, pack_grid_bit_cleared q rotatedIndex _ _ ha hk]
  simp only [Config.width, Config.height, rotatedIndex_eq, pixelBit, eq_comm]

variable {q}

/-- An all-background bitmap packs to `0xFF` everywhere (R164). -/
theorem packNative_of_background (hq : ∀ x y, x < 128 → y < 64 → q x y = .background) (ha : a < 1024) :
    fbByte (packNative q) a = 0xFF := by
  refine fbByte_pack_of_no_ink q nativeIndex ha ?_
  rintro ⟨x, y⟩ hv hi
  obtain ⟨hx, hy⟩ := (mem_grid ..).mp hv
  simp [hq x y hx hy] at hi

variable {c p : Nat}

/-- R165: ink among the eight pixels of a byte clears the byte's one bit. -/
theorem packRotated_of_ink (hc : c < 128) (hp : p < 8)
    (hink : ∃ x, 56 - 8 * p ≤ x ∧ x ≤ 63 - 8 * p ∧ q x c = .ink) :
    fbByte (packRotated q) (c + 128 * p) = 0xFF &&& ~~~(1#8 <<< (c % 8)) := by
  have ha : c + 128 * p < Config.fbSize := by simp only [Config.fbSize]; omega
  obtain ⟨x, hlo, hhi, hi⟩ := hink
  have hx : x < 64 := by omega
  refine fbByte_pack_of_ink_at_bit q rotatedIndex ha (Nat.mod_lt _ (by omega))
    ⟨(x, c), (mem_grid ..).mpr ⟨hx, hc⟩, hi, (rotatedIndex_eq_iff hx hc hc hp).mpr ⟨rfl, hlo, hhi⟩⟩ ?_
  rintro ⟨x', y⟩ hv hva
  obtain ⟨hx', hy⟩ := (mem_grid ..).mp hv
  rw [((rotatedIndex_eq_iff hx' hy hc hp).mp hva).1, pixelBit]

/-- R165: without ink among its eight pixels a byte stays blank. -/
theorem packRotated_of_background (hc : c < 128) (hp : p < 8)
    (hbg : ∀ x, 56 - 8 * p ≤ x → x ≤ 63 - 8 * p → q x c = .background) :
    fbByte (packRotated q) (c + 128 * p) = 0xFF := by
  refine fbByte_pack_of_no_ink q rotatedIndex (by simp only [Config.fbSize]; omega) ?_
  rintro ⟨x, y⟩ hv hi hva
  obtain ⟨hx, hy⟩ := (mem_grid ..).mp hv
  obtain ⟨rfl, hlo, hhi⟩ := (rotatedIndex_eq_iff hx hy hc hp).mp hva
  simp [hbg x hlo hhi] at hi

end

/-- Settles O35: PACK leaves the native buffer, whose cleared bits are the ink. -/
theorem packNativeClearsTheInkBits : Obligations.PackNativeClearsTheInkBits :=
  ⟨decode_of_encode (i := .pack) rfl, fun s hs hw hh =>
    ⟨packNative (pix s), exec_pack_native hs hw hh, fun _ _ ha hk => packNative_bit_cleared (pix s) ha hk⟩⟩

/-- Settles O36: PACK leaves the rotated buffer, whose cleared bits are the ink. -/
theorem packRotatedClearsTheInkBits : Obligations.PackRotatedClearsTheInkBits := fun s hs hw hh =>
  ⟨packRotated (pix s), exec_pack_rotated hs hw hh, fun _ _ ha hk => packRotated_bit_cleared (pix s) ha hk⟩

/-- Settles O37: each bit is its pixel, and the two bitmaps of one colour. -/
theorem packNativeIsABijection : Obligations.PackNativeIsABijection := by
  intro s t hs hw hh h
  have hbit := fun c p k => @packNative_bit (pix s) c p k
  have hbg := fun hq a => @packNative_of_background (pix s) a hq
  have hink := fun hq a => @packNative_of_ink (pix s) hq a
  rw [exec_pack_native hs hw hh] at h
  generalize packNative (pix s) = fb at h hbit hbg hink
  cases h
  exact ⟨hbit, hbg, hink⟩

/-- Settles O38: a byte's eight pixels share its one bit. -/
theorem packRotatedClosedForm : Obligations.PackRotatedClosedForm := by
  intro s t hs hw hh h c p hc hp
  have hink := packRotated_of_ink (q := pix s) hc hp
  have hbg := packRotated_of_background (q := pix s) hc hp
  rw [exec_pack_rotated hs hw hh] at h
  generalize packRotated (pix s) = fb at h hink hbg
  cases h
  exact ⟨hink, hbg⟩

/-- Settles O41: both loops stay inside FB, and only the pixels they visit matter. -/
theorem packScanOrderDoesNotMatter : Obligations.PackScanOrderDoesNotMatter := by
  refine fun p visits => ⟨fun h => paint_eq_of_same_visits p nativeIndex h ?_,
    fun h => paint_eq_of_same_visits p rotatedIndex h ?_⟩
  · rintro ⟨x, y⟩ hv
    obtain ⟨hx, hy⟩ := (mem_grid ..).mp hv
    exact nativeIndex_lt hx hy
  · rintro ⟨x, y⟩ hv
    exact rotatedIndex_lt ((mem_grid ..).mp hv).2

/-! ### The shape test -/

/-- The two shapes PACK supports (R161, R162). -/
def State.PackableShape (s : State) : Prop := (s.bmw = 128 ∧ s.bmh = 64) ∨ (s.bmw = 64 ∧ s.bmh = 128)

/-- PACK of any other shape raises SHAPE (R166). -/
theorem exec_pack_of_unsupported {s : State} (hs : s.ds ≠ .halt) (hshape : ¬s.PackableShape) :
    exec .pack s = .next (raise .shape s) := by
  obtain ⟨hw, hh, -⟩ | ⟨hw, hh, -⟩ | ⟨-, -, hr⟩ := packBitmap_cases { s with sp := 0 }
  · exact absurd (.inl ⟨hw, hh⟩) hshape
  · exact absurd (.inr ⟨hw, hh⟩) hshape
  · rw [exec_pack, operation_of_permitted hs (whenNotHalted_of_ne_halt hs), hr]
    rfl

/-- Settles O39: the rule's examples are none of the two shapes. -/
theorem packOfAnotherShapeFaults : Obligations.PackOfAnotherShapeFaults := by
  refine ⟨fun s hs hn hr => exec_pack_of_unsupported hs (not_or.mpr ⟨hn, hr⟩), fun s hs hmem =>
    exec_pack_of_unsupported hs ?_⟩
  have hlist : ∀ q ∈ [((0 : Word), (0 : Word)), (128, 128), (64, 64), (127, 64), (256, 32)],
      ¬((q.1 = 128 ∧ q.2 = 64) ∨ (q.1 = 64 ∧ q.2 = 128)) := by simp
  exact hlist (s.bmw, s.bmh) hmem

/-! ### Purity -/

/-- The pixels depend on BM and BMW alone (R30). -/
theorem pix_congr {s s' : State} (hbm : s.bm = s'.bm) (hw : s.bmw = s'.bmw) : pix s = pix s' := by
  funext x y
  rw [pix, pix, pixelCell, pixelCell, hbm, hw]

/-- A painted buffer in canonical form lists exactly FB's 1024 bytes (R163). -/
theorem read_pack_isSome_eq {p : Nat → Nat → Pixel} {index : Nat → Nat → Nat} {visits : List (Nat × Nat)}
    (hwf : Memory.wf Config.fbSize (paint p index visits blankFB) = true) (a : Nat) :
    (Memory.read (paint p index visits blankFB) a).isSome = decide (a < 1024) := by
  by_cases ha : a < 1024
  · rw [read_pack_isSome p index visits ha, decide_eq_true ha]
  · rw [Memory.read_eq_none_of_ge hwf (Nat.le_of_not_lt ha), decide_eq_false ha, Option.isSome_none]

/-- PACK completes with the buffer `fb`. -/
def State.PacksTo (s : State) (fb : List Host.Cell) : Prop :=
  exec .pack s = .next { s with fb := fb, fblen := 1024, ret := false, sp := 0 }

/-- Two states with the same bitmap of a supported shape pack to one buffer of 1024 bytes. -/
theorem packsTo_same_buffer {s s' : State} (hs : s.ds ≠ .halt) (hs' : s'.ds ≠ .halt) (hbm : s.bm = s'.bm)
    (hw : s.bmw = s'.bmw) (hh : s.bmh = s'.bmh) (hshape : s.PackableShape) :
    ∃ fb, (∀ a, (Memory.read fb a).isSome = decide (a < 1024)) ∧ s.PacksTo fb ∧ s'.PacksTo fb := by
  have hp : pix s' = pix s := (pix_congr hbm hw).symm
  obtain ⟨hw0, hh0⟩ | ⟨hw0, hh0⟩ := hshape
  · exact ⟨packNative (pix s), read_pack_isSome_eq (wf_packNative _), exec_pack_native hs hw0 hh0,
      hp ▸ exec_pack_native hs' (hw ▸ hw0) (hh ▸ hh0)⟩
  · exact ⟨packRotated (pix s), read_pack_isSome_eq (wf_packRotated _), exec_pack_rotated hs hw0 hh0,
      hp ▸ exec_pack_rotated hs' (hw ▸ hw0) (hh ▸ hh0)⟩

/-- A PACK that has recorded no fault was of a supported shape. -/
theorem packableShape_of_no_fault {s t : State} (hs : s.ds ≠ .halt) (h : exec .pack s = .next t)
    (ht : t.fault = .none) : s.PackableShape := by
  by_contra hshape
  obtain rfl := Host.Outcome.next.inj ((exec_pack_of_unsupported hs hshape).symm.trans h)
  exact absurd ht (by simp)

/-- Settles O40: the one buffer of two states, and the operations that UNINIT refuses. -/
theorem packDependsOnTheBitmapAlone : Obligations.PackDependsOnTheBitmapAlone := by
  refine ⟨fun s s' t t' hs hs' hbm hw hh h h' ht _ _ _ => ?_, ?_⟩
  · obtain ⟨fb, hread, hfb, hfb'⟩ :=
      packsTo_same_buffer hs hs' hbm hw hh (packableShape_of_no_fault hs h ht)
    obtain rfl := Host.Outcome.next.inj (hfb.symm.trans h)
    obtain rfl := Host.Outcome.next.inj (hfb'.symm.trans h')
    exact ⟨rfl, hread, rfl, rfl, fun pin => by cases pin <;> rfl, rfl⟩
  · intro i s hs hi
    simp only [List.mem_cons, List.not_mem_nil, or_false] at hi
    obtain (rfl | rfl) | ⟨b, rfl | rfl⟩ := hi
    · exact congrArg Host.Outcome.next (operation_whenReady_of_uninit hs clearDisplay)
    · exact congrArg Host.Outcome.next (operation_whenReady_of_uninit hs showBuffer)
    · exact congrArg Host.Outcome.next (operation_whenReady_of_uninit hs (sendOne (false, b)))
    · exact congrArg Host.Outcome.next (operation_whenReady_of_uninit hs (sendOne (true, b)))

end Sys2Proof.Machine
end

section
/-! Faults and the operation frame (60_exceptions.md R181, R182, R184 to R187): which operation runs with which body
where, and what the frame makes of it in each lifecycle state. -/

namespace Sys2Proof.Machine

/-! ### The table of operations -/

/-- The operations, each with the lifecycle states that permit it and with its body (R187). The sequencer's own three
instructions are none (assumption 8). -/
inductive OperationRow : Instr → (Lifecycle → Bool) → (State → Run) → Prop
  | cmd (b : Byte) : OperationRow (.cmd b) whenReady (sendOne (false, b))
  | data (b : Byte) : OperationRow (.data b) whenReady (sendOne (true, b))
  | reset : OperationRow .reset whenNotHalted resetDisplay
  | init : OperationRow .init whenUninit (initDisplay Config.initSeq)
  | clear : OperationRow .clear whenReady clearDisplay
  | showFrame : OperationRow .showFrame whenReady showBuffer
  | pack : OperationRow .pack whenNotHalted packBitmap

section
variable {i : Instr} {permitted : Lifecycle → Bool} {body : State → Run} {s : State}
  (hi : OperationRow i permitted body)
include hi

theorem OperationRow.exec_eq (s : State) : exec i s = .next (operation permitted body s) := by
  cases hi with
  | cmd b => exact exec_cmd b s
  | data b => exact exec_data b s
  | reset => exact exec_reset s
  | init => exact exec_init s
  | clear => exact exec_clear s
  | showFrame => exact exec_showFrame s
  | pack => exact exec_pack s

/-- READY permits every operation but INIT (R187). -/
theorem OperationRow.permitted_ready_iff : permitted .ready = true ↔ i ≠ .init := by
  cases hi <;> simp [whenReady, whenUninit, whenNotHalted]

/-- UNINIT permits RESET, INIT and PACK (R187). -/
theorem OperationRow.permitted_uninit_iff : permitted .uninit = true ↔ i ∈ [.reset, .init, .pack] := by
  cases hi <;> simp [whenReady, whenUninit, whenNotHalted]

theorem OperationRow.exec_of_halt (hs : s.ds = .halt) : exec i s = .next (refuseHalted s) := by
  rw [hi.exec_eq, operation_of_halt hs]

theorem OperationRow.exec_of_not_permitted (hs : s.ds ≠ .halt) (hp : permitted s.ds = false) :
    exec i s = .next (raise .seq s) := by
  rw [hi.exec_eq, operation_of_not_permitted hs hp]

theorem OperationRow.exec_of_permitted (hs : s.ds ≠ .halt) (hp : permitted s.ds = true) :
    exec i s = .next (body { s with sp := 0 }).close := by
  rw [hi.exec_eq, operation_of_permitted hs hp]

end

/-- The seven operations a host word can encode are the rows (R81, R187). -/
theorem operationRow_of_mem {i : Instr}
    (hop : i ∈ [.reset, .init, .clear, .showFrame, .pack] ∨ ∃ b, i = .cmd b ∨ i = .data b) :
    ∃ permitted body, OperationRow i permitted body := by
  simp only [List.mem_cons, List.not_mem_nil, or_false] at hop
  obtain (rfl | rfl | rfl | rfl | rfl) | ⟨b, rfl | rfl⟩ := hop
  · exact ⟨_, _, .reset⟩
  · exact ⟨_, _, .init⟩
  · exact ⟨_, _, .clear⟩
  · exact ⟨_, _, .showFrame⟩
  · exact ⟨_, _, .pack⟩
  · exact ⟨_, _, .cmd b⟩
  · exact ⟨_, _, .data b⟩

/-- Every legal word of OP encodes an operation (R80, R81). -/
theorem operationRow_of_decode_host16 {w : Word} {i : Instr} (h : decode (.host16 w) = .ok i) :
    ∃ permitted body, OperationRow i permitted body := by
  refine operationRow_of_mem ?_
  obtain ⟨-, rfl⟩ | ⟨-, rfl⟩ | ⟨-, ⟨-, rfl⟩ | ⟨-, rfl⟩ | ⟨-, rfl⟩ | ⟨-, rfl⟩ | ⟨-, rfl⟩⟩ :=
    decodeHost16_cases h <;> simp

/-- Every instruction is an operation or one of the sequencer's own bytes. -/
theorem operationRow_or_sequencerByte (i : Instr) :
    (∃ permitted body, OperationRow i permitted body) ∨ ∃ b, ∀ s, exec i s = .next (sequencerByte b s) := by
  cases i with
  | setPage page => exact .inr ⟨_, exec_setPage page⟩
  | setColLo => exact .inr ⟨_, exec_setColLo⟩
  | setColHi => exact .inr ⟨_, exec_setColHi⟩
  | _ => exact .inl (operationRow_of_mem (by simp))

/-! ### HALT -/

theorem illegalWord_of_halt {s : State} (hs : s.ds = .halt) : illegalWord s = refuseHalted s := if_pos hs

theorem illegalWord_of_not_halt {s : State} (hs : s.ds ≠ .halt) : illegalWord s = raise .illegalOp s := if_neg hs

/-- While halted a word written to OP is not even decoded: legal or not, it only sets RET (R185). -/
theorem writeOp_of_halt (w : Word) {s : State} (hs : s.ds = .halt) : writeOp w s = .next (refuseHalted s) := by
  cases hw : decode (.host16 w) with
  | ok i =>
    obtain ⟨permitted, body, hi⟩ := operationRow_of_decode_host16 hw
    rw [writeOp_of_decodes hw, hi.exec_of_halt hs]
  | error e => rw [writeOp_of_illegal hw, illegalWord_of_halt hs]

/-- The lifecycle, the fault, the trace and the pins of `t` are those of `s`. -/
def State.SameBlock (s t : State) : Prop :=
  t.ds = s.ds ∧ t.fault = s.fault ∧ t.trace = s.trace ∧ ∀ p, pinLevel t p = pinLevel s p

theorem refuseHalted_sameBlock (s : State) : s.SameBlock (refuseHalted s) :=
  ⟨rfl, rfl, rfl, fun p => by cases p <;> rfl⟩

theorem reply_sameBlock (s : State) (r : Reply) : s.SameBlock (s.reply r) :=
  ⟨rfl, rfl, rfl, fun p => by cases p <;> rfl⟩

theorem writeReg_sameBlock (s : State) (n : Nat) (v : Word) : s.SameBlock (writeReg s n v) := by
  unfold writeReg
  split <;> exact ⟨rfl, rfl, rfl, fun p => by cases p <;> rfl⟩

/-- In HALT an operation only sets RET, and the sequencer's own bytes do nothing (R185; assumption 8). -/
theorem exec_sameBlock_of_halt {i : Instr} {s t : State} (hs : s.ds = .halt) (h : exec i s = .next t) :
    s.SameBlock t := by
  obtain ⟨permitted, body, hi⟩ | ⟨b, hb⟩ := operationRow_or_sequencerByte i
  · cases (hi.exec_of_halt hs).symm.trans h
    exact refuseHalted_sameBlock s
  · have hq : sequencerByte b s = s := if_pos hs
    rw [hb, hq] at h
    cases h
    exact ⟨rfl, rfl, rfl, fun _ => rfl⟩

/-- In HALT the host's access to the registers and memories is all a step can be, but for RET (R185). -/
theorem step_sameBlock_of_halt {s t : State} (hs : s.ds = .halt) (h : step s = .next t) : s.SameBlock t := by
  obtain ⟨-, rfl⟩ | ⟨x, rest, -, ⟨i, he⟩ | rfl | ⟨r, rfl⟩ | ⟨n, v, rfl⟩ | ⟨a, v, -, rfl⟩ | ⟨n, p, -, rfl⟩⟩ :=
    step_cases h
  · exact ⟨rfl, rfl, rfl, fun _ => rfl⟩
  · exact exec_sameBlock_of_halt (s := { s with inputs := rest }) hs he
  · rw [illegalWord_of_halt (s := { s with inputs := rest }) hs]
    exact refuseHalted_sameBlock { s with inputs := rest }
  · exact reply_sameBlock { s with inputs := rest } r
  · exact writeReg_sameBlock { s with inputs := rest } n v
  · exact ⟨rfl, rfl, rfl, fun p => by cases p <;> rfl⟩
  · exact ⟨rfl, rfl, rfl, fun p => by cases p <;> rfl⟩

/-- In the invariant HALT means a fault, so the state is not final (R24, R220). -/
theorem State.Inv.not_final_of_halt {s : State} (h : s.Inv) (hs : s.ds = .halt) : s.final = false :=
  decide_eq_false (h.halt_iff_fault.mp hs)

/-- Settles O18: a halted block refuses every word and every step keeps what `SameBlock` names, while the host's
access to the registers and memories does not look at the lifecycle. -/
theorem haltAbsorbs : Obligations.HaltAbsorbs := by
  refine ⟨fun w s => writeOp_of_halt w, fun s t hs h => ?_, fun s v _ => ⟨rfl, rfl, rfl⟩, fun s n _ => rfl,
    fun s a v _ ha => ⟨if_pos ha, if_pos ha⟩, fun s n p _ hn => ⟨if_pos hn, if_pos hn⟩,
    fun s => State.Inv.not_final_of_halt⟩
  obtain ⟨hds, hkept⟩ := step_sameBlock_of_halt hs h
  exact ⟨hds.trans hs, hkept⟩

/-! ### SEQ -/

section
variable {s : State} (hs : s.fault ≠ .seq)
include hs

theorem sendAll_fault_ne_seq (l : List (Bool × Byte)) : (sendAll l s).close.fault ≠ .seq := by
  obtain ⟨-, hr⟩ | ⟨n, hn, -, hr⟩ := sendAll_cases l s <;> rw [hr]
  · exact hs
  · exact nofun

theorem sendOne_fault_ne_seq (x : Bool × Byte) : (sendOne x s).close.fault ≠ .seq := by
  have e : sendAll [x] s = sendOne x s := Run.andThen_id _
  exact e ▸ sendAll_fault_ne_seq hs [x]

theorem showPages_fault_ne_seq : (showPages s).close.fault ≠ .seq := by
  rw [showPages_eq]
  exact sendAll_fault_ne_seq hs _

theorem showBuffer_fault_ne_seq : (showBuffer s).close.fault ≠ .seq := by
  obtain ⟨-, hr⟩ | ⟨-, hr⟩ := showBuffer_cases s <;> rw [hr]
  · exact showPages_fault_ne_seq hs
  · exact nofun

theorem clearDisplay_fault_ne_seq : (clearDisplay s).close.fault ≠ .seq := by
  rw [clearDisplay]
  generalize blankFB = fb
  exact showPages_fault_ne_seq hs

theorem packBitmap_fault_ne_seq : (packBitmap s).close.fault ≠ .seq := by
  obtain ⟨-, -, hr⟩ | ⟨-, -, hr⟩ | ⟨-, -, hr⟩ := packBitmap_cases s <;> rw [hr]
  · exact hs
  · exact hs
  · exact nofun

theorem initDisplay_fault_ne_seq (seq : List Byte) : (initDisplay seq s).close.fault ≠ .seq := by
  obtain ⟨-, hr⟩ | ⟨-, -, hr⟩ | ⟨-, n, hn, -, hr⟩ := initDisplay_cases seq s <;> rw [hr]
  · exact hs
  · exact hs
  · exact nofun

/-- No body raises SEQ: that is the frame's alone (R182). -/
theorem OperationRow.body_fault_ne_seq {i : Instr} {permitted : Lifecycle → Bool} {body : State → Run}
    (hi : OperationRow i permitted body) : (body s).close.fault ≠ .seq := by
  cases hi with
  | cmd b => exact sendOne_fault_ne_seq hs _
  | data b => exact sendOne_fault_ne_seq hs _
  | reset => exact hs
  | init => exact initDisplay_fault_ne_seq hs _
  | clear => exact clearDisplay_fault_ne_seq hs
  | showFrame => exact showBuffer_fault_ne_seq hs
  | pack => exact packBitmap_fault_ne_seq hs

end

theorem OperationRow.exec_fault_ne_seq {i : Instr} {permitted : Lifecycle → Bool} {body : State → Run} {s t : State}
    (hi : OperationRow i permitted body) (hs : s.ds ≠ .halt) (hp : permitted s.ds = true) (hf : s.fault = .none)
    (h : exec i s = .next t) : t.fault ≠ .seq := by
  have hf' : State.fault { s with sp := 0 } ≠ .seq := hf ▸ nofun
  cases (hi.exec_of_permitted hs hp).symm.trans h
  exact hi.body_fault_ne_seq hf'

/-- Settles O19: the frame refuses by the table, and where the table permits an operation its body raises no SEQ. -/
theorem operationsOutOfOrderFault : Obligations.OperationsOutOfOrderFault := by
  refine ⟨fun i s hop hs => ?_, fun s hs => ?_, fun i s hop hs => ?_, fun i s t hf hp h => ?_⟩
  · obtain ⟨permitted, body, hi⟩ := operationRow_of_mem (hop.imp_left fun hm => List.Sublist.subset (by decide) hm)
    have hno : i ∉ [.reset, .init, .pack] := fun hm => by
      simp only [List.mem_cons, List.not_mem_nil, or_false] at hm
      obtain rfl | rfl | rfl := hm <;> simp at hop
    have hp : permitted s.ds ≠ true := hs ▸ mt hi.permitted_uninit_iff.mp hno
    exact hi.exec_of_not_permitted (by simp [hs]) (Bool.eq_false_of_not_eq_true hp)
  · exact OperationRow.init.exec_of_not_permitted (by simp [hs]) (by simp [hs, whenUninit])
  · obtain ⟨permitted, body, hi⟩ := operationRow_of_mem hop
    exact hi.exec_of_halt hs
  · obtain ⟨hs, hop⟩ | ⟨hs, hop⟩ := hp
    · obtain ⟨permitted, body, hi⟩ := operationRow_of_mem (hop.imp_left fun hm => List.Sublist.subset (by decide) hm)
      have hno : i ≠ .init := by rintro rfl; simp at hop
      exact hi.exec_fault_ne_seq (by simp [hs]) (hs ▸ hi.permitted_ready_iff.mpr hno) hf h
    · obtain ⟨permitted, body, hi⟩ := operationRow_of_mem (.inl (List.Sublist.subset (by decide) hop))
      exact hi.exec_fault_ne_seq (by simp [hs]) (hs ▸ hi.permitted_uninit_iff.mpr hop) hf h

/-! ### The frame -/

/-- Settles O20: the halt check and the decoding of a word, and then the frame by its body's end. -/
theorem operationFrameOrder : Obligations.OperationFrameOrder := by
  refine ⟨fun w s => writeOp_of_halt w, fun w e s hs hw => ?_, fun w i s hw => writeOp_of_decodes hw s,
    fun permitted body s hs => ⟨operation_of_not_permitted hs, fun hp => ⟨fun t ht => ?_, fun t ht => ?_⟩⟩⟩
  · exact (writeOp_of_illegal hw s).trans (congrArg _ (illegalWord_of_not_halt hs))
  · rw [operation_of_permitted hs hp, ht, Run.close_running]
    rfl
  · rw [operation_of_permitted hs hp, ht, Run.close_ended]

/-- Settles O17: a raise is its four writes, and nothing runs after an operation has ended. -/
theorem faultEntry : Obligations.FaultEntry :=
  fun code s f => ⟨rfl, Run.andThen_ended (raise code s) f, Run.close_ended (raise code s)⟩

end Sys2Proof.Machine
end

section
/-! Reset and hazards (70_reset_and_hazards.md R215, R218, R220): the settle times of the reset line, the shorter runs
of a safe run, and that every instruction terminates. -/

namespace Sys2Proof.Machine

/-! ### The settle times (R215) -/

/-- A settled list ends with no level still settling, so a settled list may follow it. -/
theorem settled_append {events new : List Event} (h : settled events = true) (hnew : settled new = true) :
    settled (events ++ new) = true := by
  induction events using settled.induct with
  | case1 => exact hnew
  | case2 v ms rest ih =>
    obtain ⟨hms, hrest⟩ := (Bool.and_eq_true _ _).mp h
    exact (Bool.and_eq_true _ _).mpr ⟨hms, ih hrest⟩
  | case3 v rest hrest => simp [settled] at h
  | case4 ms rest ih => exact ih h
  | case5 dc b rest ih => exact ih h
  | case6 reg b rest ih => exact ih h
  | case7 rest ih => exact ih h

/-- A transfer drives no level of the reset line (R110 to R113). -/
theorem settled_sendEvent (t : Transport) (x : Bool × Byte) : settled [sendEvent t x] = true := by
  obtain ⟨d, b⟩ := x
  cases t <;> cases d <;> rfl

/-- The reset pulse alone drives levels, and it waits after each (R130). -/
theorem settled_traceInvariant : TraceInvariant fun _ events => settled events = true where
  send t _ x h := settled_append h (settled_sendEvent t x)
  pulse _ _ h := settled_append h (by decide)
  busFail _ _ h := settled_append h rfl

/-- Settles O12: being settled is an invariant of the trace. -/
theorem stepKeepsTheSettleTimes : Obligations.StepKeepsTheSettleTimes :=
  fun _ _ hs h => settled_traceInvariant.step_keeps hs h

/-! ### Safe runs (R220) -/

theorem safeRun_zero (s : State) : SafeRun s 0 ↔ s.final = true := by
  simp [SafeRun, Host.Core.run]

/-- A safe run takes its first step to a state from which the rest is safe. -/
theorem safeRun_succ (s : State) (n : Nat) : SafeRun s (n + 1) ↔ ∃ t, step s = .next t ∧ SafeRun t n := by
  cases h : step s <;> simp [SafeRun, Host.Core.run, h]

/-- A step never clears a fault (R185): outside the final states the block is halted, and there the fault stays. -/
theorem final_of_step {s t : State} (hs : s.Inv) (h : step s = .next t) (ht : t.final = true) : s.final = true := by
  by_cases hh : s.ds = .halt
  · obtain ⟨-, hf, -⟩ := step_sameBlock_of_halt hh h
    rwa [State.final, ← hf]
  · exact decide_eq_true (hs.fault_of_not_halt hh)

/-- A safe run starts final: the invariant carries the final state at its end back to its start. -/
theorem final_of_safeRun {s : State} {n : Nat} (hs : s.Inv) (h : SafeRun s n) : s.final = true := by
  induction n generalizing s with
  | zero => exact (safeRun_zero s).mp h
  | succ n ih =>
    obtain ⟨t, ht, hrest⟩ := (safeRun_succ s n).mp h
    exact final_of_step hs ht (ih (stepKeepsTheInvariant s t hs ht) hrest)

/-- Settles O16: by induction on the shorter run, whose last state starts a safe run and so is final. -/
theorem aSafeRunIsSafeAtEveryStep : Obligations.ASafeRunIsSafeAtEveryStep := by
  intro s n m hs hmn h
  induction m generalizing s n with
  | zero => exact (safeRun_zero s).mpr (final_of_safeRun hs h)
  | succ m ih =>
    obtain ⟨n, rfl⟩ := Nat.exists_eq_add_of_le' hmn
    obtain ⟨t, ht, hrest⟩ := (safeRun_succ s (n + m)).mp h
    exact (safeRun_succ s m).mpr ⟨t, ht, ih t _ (stepKeepsTheInvariant s t hs ht) (Nat.le_add_left m n) hrest⟩

/-! ### Termination (R218) -/

/-- Settles O50: the next state of every instruction and the events its effect can have appended. -/
theorem everyInstructionTerminates : Obligations.EveryInstructionTerminates := by
  intro i s
  obtain ⟨t, he, heffect⟩ := (State.Quiet.refl s).exec_next i
  obtain ⟨events, htrace, hlen⟩ := heffect.trace_append
  exact ⟨t, he, events, htrace, hlen.trans_eq (by cases i <;> rfl)⟩

end Sys2Proof.Machine
end
